-- ==== Sys2Proof/Word.lean ====
section
/-! DEFINITION. The machine's word: a mathematical signed integer (R4, R84, D1). -/

namespace Sys2Proof

/-- The content of a tape cell, an address, an operand or the instruction pointer.
"Every value in this spec ... is a mathematical signed integer" (00_scope.md R4); a finite width `W` is a
range check on cells (Machine/Flags.lean, `widthFits`), never a wrapped representation (41_arithmetic.md R84).
The files after this one write `Int` itself, because the decision procedures for integers look for that name. -/
abbrev Word := Int

end Sys2Proof
end

