-- ==== Sys2Proof/Syntax.lean ====
section
/-! DEFINITION. The instructions as the dispatcher and the mode extraction see them (30_encoding.md R51, R54, R56).
An instruction here is what its instruction WORD says; operand cells are read from the tape when the operand is
resolved (R103), so they are no part of it. -/

namespace Sys2Proof

/-- The addressing mode a mode digit selects (R53): 0 position, 1 immediate, and the eight digits 2 to 9, which
select no mode and are carried as they stand because `IllegalMode` is raised only when the operand is resolved (R59). -/
inductive Mode where
  | position
  | immediate
  | illegal (digit : Nat)
  deriving DecidableEq, Repr

/-- One constructor per row of spec/opcode_table.json. `m1`, `m2` are the decoded modes of read operands 1 and 2
(R54); `spare` is the number formed by the digits above the examined ones, which have no effect (R60) and are kept
because faults record the raw word (R122, R125). -/
inductive Instr where
  | add (m1 m2 : Mode) (spare : Nat)
  | mul (m1 m2 : Mode) (spare : Nat)
  | inp (spare : Nat)
  | out (m1 : Mode) (spare : Nat)
  | jt (m1 m2 : Mode) (spare : Nat)
  | jf (m1 m2 : Mode) (spare : Nat)
  | lt (m1 m2 : Mode) (spare : Nat)
  | eq (m1 m2 : Mode) (spare : Nat)
  | halt (spare : Nat)
  deriving DecidableEq, Repr

end Sys2Proof
end

