-- ==== Sys2Proof/Config.lean ====
section
/-! DEFINITION. The parameters the spec leaves to an implementation (00_scope.md R3): the word width `W` and the
name of the fault an out-of-bounds position-mode pointer reports. `LEN`, `IMAGE` and `IP_INIT` are arguments of
`load` (Machine/HostPort.lean). The machine has no free value: every result the spec gives is a definite integer. -/

namespace Sys2Proof

/-- The word width `W` (R3): unbounded in this spec (D1), or a number of bits for a finite-width build (D2). -/
inductive Width where
  | unbounded
  | bits (n : Nat)
  deriving DecidableEq, Repr

/-- `POS_TARGET_FAULT` (R3, D6): which fault an out-of-bounds position-mode target reports. -/
inductive PosTargetFault where
  | malformedOperand
  | outOfBounds
  deriving DecidableEq, Repr

/-- The parameters fixed for the lifetime of one run (R3), at the spec's normative values by default. -/
structure Config where
  width : Width := .unbounded
  posTargetFault : PosTargetFault := .malformedOperand
  deriving DecidableEq, Repr

end Sys2Proof
end

