-- ==== Sys2Proof/WellFormed.lean ====
section
/-! DEFINITION. Which instruction terms an instruction word can spell, and which parameter values a machine can have. -/

namespace Sys2Proof

/-- A mode is what one decimal digit can select: an illegal digit is one of 2 to 9 (R53, R59). -/
def Mode.wf : Mode → Bool
  | .position => true
  | .immediate => true
  | .illegal d => decide (2 ≤ d ∧ d ≤ 9)

/-- The mode is one of the two that exist (R53). -/
def Mode.legal : Mode → Bool
  | .position => true
  | .immediate => true
  | .illegal _ => false

/-- An instruction is well formed when each of its decoded modes is; the unexamined digits are any number (R60). -/
def Instr.wf : Instr → Bool
  | .add m1 m2 _ => m1.wf && m2.wf
  | .mul m1 m2 _ => m1.wf && m2.wf
  | .inp _ => true
  | .out m1 _ => m1.wf
  | .jt m1 m2 _ => m1.wf && m2.wf
  | .jf m1 m2 _ => m1.wf && m2.wf
  | .lt m1 m2 _ => m1.wf && m2.wf
  | .eq m1 m2 _ => m1.wf && m2.wf
  | .halt _ => true

/-- A finite width has at least two bits. DEDUCED (log 7): R95 says that a comparison's result, 0 or 1, raises no
overflow fault, and 1 is in the cell range `[-2^(W-1), 2^(W-1) - 1]` of R84 only from `W = 2` on. Safe. -/
def Config.wf (c : Config) : Bool :=
  match c.width with
  | .unbounded => true
  | .bits n => decide (2 ≤ n)

end Sys2Proof
end

