-- ==== Sys2Proof/Decode.lean ====
section
/-! DEFINITION. The decoder from an instruction word to an instruction (30_encoding.md R51 to R60, R65; dispatch,
46_dispatch_and_run.md R104), and the encoder back. Both are total and computable. -/

namespace Sys2Proof

/-- The decimal digit of weight `10^j` of a non-negative number (00_scope.md R4). -/
def digit (j w : Nat) : Nat := w / 10 ^ j % 10

/-- The mode a digit selects (R53, R59). -/
def Mode.ofDigit : Nat → Mode
  | 0 => .position
  | 1 => .immediate
  | d => .illegal d

/-- The digit that selects a mode. -/
def Mode.digit : Mode → Nat
  | .position => 0
  | .immediate => 1
  | .illegal d => d

/-- `mode_k(w) = digit_(k+1)(w)`: the mode of operand `k` (R4, R53). -/
def modeAt (k w : Nat) : Mode := Mode.ofDigit (digit (k + 1) w)

/-- Why a word spells no instruction: both are the fault `UnknownOpcode` at dispatch (R57, R58). -/
inductive DecodeError where
  /-- `w mod 100` is not an opcode (R57). -/
  | unregisteredOpcode (opcode : Nat)
  /-- the word is negative and has no opcode (R58). -/
  | negativeWord
  deriving DecidableEq, Repr

/-- Dispatch on `w mod 100` of a non-negative word (R52, R65, R104), with the modes of the operands the operation
declares as read operands (R53, R54). -/
def decodeNat (n : Nat) : Except DecodeError Instr :=
  match n % 100 with
  | 1 => .ok (.add (modeAt 1 n) (modeAt 2 n) (n / 10000))
  | 2 => .ok (.mul (modeAt 1 n) (modeAt 2 n) (n / 10000))
  | 3 => .ok (.inp (n / 100))
  | 4 => .ok (.out (modeAt 1 n) (n / 1000))
  | 5 => .ok (.jt (modeAt 1 n) (modeAt 2 n) (n / 10000))
  | 6 => .ok (.jf (modeAt 1 n) (modeAt 2 n) (n / 10000))
  | 7 => .ok (.lt (modeAt 1 n) (modeAt 2 n) (n / 10000))
  | 8 => .ok (.eq (modeAt 1 n) (modeAt 2 n) (n / 10000))
  | 99 => .ok (.halt (n / 100))
  | c => .error (.unregisteredOpcode c)

/-- The instruction a word spells, or why it spells none (R52, R57, R58). -/
def decode (w : Int) : Except DecodeError Instr :=
  if w < 0 then .error .negativeWord else decodeNat w.toNat

/-- The opcode of an instruction (R65). -/
def Instr.opcode : Instr → Nat
  | .add _ _ _ => 1
  | .mul _ _ _ => 2
  | .inp _ => 3
  | .out _ _ => 4
  | .jt _ _ _ => 5
  | .jf _ _ _ => 6
  | .lt _ _ _ => 7
  | .eq _ _ _ => 8
  | .halt _ => 99

/-- The instruction's length in cells, the word included; a function of the opcode alone (R55). -/
def Instr.length : Instr → Nat
  | .add _ _ _ => 4
  | .mul _ _ _ => 4
  | .inp _ => 2
  | .out _ _ => 2
  | .jt _ _ _ => 3
  | .jf _ _ _ => 3
  | .lt _ _ _ => 4
  | .eq _ _ _ => 4
  | .halt _ => 1

/-- The number with the given opcode, mode digits A and B, and digits from weight 10^4 up (R51). -/
def wordAB (opcode : Nat) (m1 m2 : Mode) (spare : Nat) : Nat :=
  opcode + 100 * m1.digit + 1000 * m2.digit + 10000 * spare

/-- The instruction word as a natural number, built from the digit fields of R51. -/
def Instr.word : Instr → Nat
  | .add m1 m2 spare => wordAB 1 m1 m2 spare
  | .mul m1 m2 spare => wordAB 2 m1 m2 spare
  | .inp spare => 3 + 100 * spare
  | .out m1 spare => 4 + 100 * m1.digit + 1000 * spare
  | .jt m1 m2 spare => wordAB 5 m1 m2 spare
  | .jf m1 m2 spare => wordAB 6 m1 m2 spare
  | .lt m1 m2 spare => wordAB 7 m1 m2 spare
  | .eq m1 m2 spare => wordAB 8 m1 m2 spare
  | .halt spare => 99 + 100 * spare

/-- The instruction word a well-formed instruction is written as. -/
def encode (i : Instr) : Int := (i.word : Int)

/-- One row of the opcode map (R65): what the table gives each operation. -/
structure OpcodeRow where
  opcode : Nat
  mnemonic : String
  sourceName : String
  length : Nat
  format : String
  canonicalWords : List Nat
  deriving DecidableEq, Repr

/-- The opcode map (R65, R110): nine rows, a constant of the hardware (R18). -/
def opcodeTable : List OpcodeRow :=
  [ ⟨1, "ADD", "Add", 4, "F3", [1, 101, 1001, 1101]⟩,
    ⟨2, "MUL", "Multiply", 4, "F3", [2, 102, 1002, 1102]⟩,
    ⟨3, "IN", "Input", 2, "F1W", [3]⟩,
    ⟨4, "OUT", "Output", 2, "F1R", [4, 104]⟩,
    ⟨5, "JT", "JumpIfTrue", 3, "F2J", [5, 105, 1005, 1105]⟩,
    ⟨6, "JF", "JumpIfFalse", 3, "F2J", [6, 106, 1006, 1106]⟩,
    ⟨7, "LT", "LessThan", 4, "F3", [7, 107, 1007, 1107]⟩,
    ⟨8, "EQ", "Equals", 4, "F3", [8, 108, 1008, 1108]⟩,
    ⟨99, "HALT", "Halt", 1, "F0", [99]⟩ ]

/-- The instruction the decoder reads from a word of the opcode table. The table's numbers are decimal instruction
words and a cell is one integer of unbounded width (R4, R33), so the whole number `w` is the first cell, whatever
`nbits` is, and the operand cells, which the decoder does not read (R104), are zeros. DESIGN CHOICE (log 5). -/
def decodeTableWord (_nbits w : Nat) : Option Instr :=
  match decode (w : Int) with
  | .ok i => some i
  | .error _ => none

end Sys2Proof
end

