-- ==== Sys2Proof/Machine/State.lean ====
section
/-! DEFINITION. The machine's state (10_state.md), the reasons a step can stop, and the state after reset. -/

namespace Sys2Proof.Machine

/-- `STATUS` (R16). -/
inductive Status where
  | running
  | halted
  | faulted
  deriving DecidableEq, Repr

/-- The content of `FAULT`: the six kinds with what each records (60_exceptions.md R120 to R126, D22). -/
inductive FaultRecord where
  /-- an index outside `[0, LEN)`; records the offending address (R121) -/
  | outOfBounds (address : Int)
  /-- the word spells no instruction; records `pc` and the raw word (R122) -/
  | unknownOpcode (pc w : Int)
  /-- a required read operand is absent; records `pc` and the operand number (R123) -/
  | malformedOperand (pc : Int) (k : Nat)
  /-- two operations under one opcode; no step raises it, since the table is a constant (R124) -/
  | configurationFault
  /-- a read operand's mode digit is 2 to 9; records `pc`, the raw word and the operand number (R125) -/
  | illegalMode (pc w : Int) (k : Nat)
  /-- a sum or product outside a finite cell range; records `pc` (R126) -/
  | arithmeticOverflow (pc : Int)
  deriving DecidableEq, Repr

/-- The tape: `LEN` cells in address order from 0 (R10). A cell is a whole integer and every cell exists from reset
on (R12), so a list holds exactly the cells there are, and equal tapes are equal data (log 3). -/
abbrev Tape := List Int

/-- The machine's state: the six items of 10_state.md, then the parameters of the run (00_scope.md R3), which no
step changes and which stand here so that every statement holds for each of their values, DESIGN CHOICE (log 9). -/
structure State where
  /-- the tape `x[0..LEN-1]` (R10) -/
  tape : Tape
  /-- the instruction pointer (R13) -/
  pc : Int
  /-- `STATUS` (R16) -/
  status : Status
  /-- `FAULT` (R17) -/
  fault : Option FaultRecord
  /-- the input cursor `in_pos` (R19) -/
  inPos : Nat
  /-- the output log, oldest value first (R20) -/
  out : List Int
  /-- the input sequence as far as the host has supplied it (R19, U15) -/
  input : List Int
  /-- `W` and `POS_TARGET_FAULT` (R3) -/
  cfg : Config
  deriving DecidableEq, Repr

/-- Why the machine has no next step. The faults of the spec are NOT here: they are entered as a next state with
`STATUS = FAULTED` and the record in `FAULT` (R129). -/
inductive Fault where
  /-- Raised by `step` alone when `STATUS = HALTED`: "In `STATUS = HALTED` or `FAULTED` no step exists" (R106), the
  final state (R101). Safe: the model stops where the machine does. -/
  | noStepAfterHalt
  /-- Raised by `step` alone when `STATUS = FAULTED`: terminal and not final (R106, R130). Safe, as above. -/
  | noStepAfterFault
  deriving DecidableEq, Repr

/-- Why an instruction has no meaning. -/
inductive Refusal where
  /-- Raised by `exec` for an instruction the model gives no meaning; no instruction of this model is. Safe. -/
  | notModelled (mnemonic : String)
  deriving DecidableEq, Repr

/-- The machine right after reset with what a host that gives nothing gives (R25): `pc = IP_INIT = 0`, `RUNNING`, no
fault, `in_pos = 0`, an empty log. `IMAGE` and the input sequence come from the host (R21, R19) and are empty here,
DESIGN CHOICE (log 4); the parameters are at the spec's normative values. `load` gives every other reset state. -/
def State.reset : State where
  tape := []
  pc := 0
  status := .running
  fault := none
  inPos := 0
  out := []
  input := []
  cfg := ⟨.unbounded, .malformedOperand⟩

end Sys2Proof.Machine
end

