-- ==== Sys2Proof/Machine/Flags.lean ====
section
/-! DEFINITION. The machine has no flags (10_state.md R18): comparisons write their truth value into a cell and jumps
test an operand. This file holds what stands in the place of flag computations: the truth value of a comparison, the
test of a jump's condition, and the range check of a finite word width (41_arithmetic.md R84). -/

namespace Sys2Proof.Machine

/-- The value a comparison writes: "exactly 1 or 0, never any other value" (R95, R96). -/
def truthValue (b : Bool) : Int := if b then 1 else 0

/-- A jump's condition: true is any integer but zero (R90). -/
def conditionHolds (c : Int) : Bool := decide (c ≠ 0)

/-- The integer lies in the cell range: `[-2^(W-1), 2^(W-1) - 1]` for a finite `W`, everything otherwise (R84). -/
def widthFits (width : Width) (v : Int) : Bool :=
  match width with
  | .unbounded => true
  | .bits n => decide (-(2 ^ (n - 1)) ≤ v ∧ v ≤ 2 ^ (n - 1) - 1)

/-- The exact result of ADD or MUL, or `ArithmeticOverflow(pc)` where it does not fit a finite `W` (R84, R126). -/
def arithResult (v : Int) (s : State) : Except FaultRecord Int :=
  if widthFits s.cfg.width v then .ok v else .error (.arithmeticOverflow s.pc)

end Sys2Proof.Machine
end

