-- ==== Sys2Proof/Machine/Ops.lean ====
section
/-! DEFINITION. The shared operations over the state: the tape's checked read and write (R5, R31), the updates of the
other items, taking a fault (R129), fetch and dispatch (R103, R104), and the placing of a word where the next step
fetches. -/

namespace Sys2Proof.Machine

/-- `InBounds(a)`: `0 <= a < LEN` (R5, R30). -/
abbrev InBounds (x : Tape) (a : Int) : Prop := 0 ≤ a ∧ a < (x.length : Int)

/-- The cell at an address, if it exists; never wrapped, clamped or counted from the end (R31). -/
def cellAt (x : Tape) (a : Int) : Option Int :=
  if InBounds x a then x[a.toNat]? else none

/-- `x[a] <- v` for an existing cell; an address outside the tape has no cell to change (R5, R10). -/
def setCell (x : Tape) (a v : Int) : Tape :=
  if InBounds x a then x.set a.toNat v else x

/-- Every cell of the tape holds an integer of the machine's width (R10, R84). A list of cells has one form for each
tape, so this is all there is to keep. -/
def Memory.wf (width : Width) (x : Tape) : Bool := x.all (widthFits width)

/-- `MemRead(a, 1)`, the source's `at` (R5, R31). -/
def memRead (a : Int) (s : State) : Except FaultRecord Int :=
  match cellAt s.tape a with
  | some v => .ok v
  | none => .error (.outOfBounds a)

/-- `x[d] <- v`, the raw write an instruction makes after its target has been checked (R5, R73). -/
def State.writeCell (d v : Int) (s : State) : State := { s with tape := setCell s.tape d v }

/-- `MemWrite(a, 1, v)`, the source's `assign` (R5, R31). -/
def memWrite (a v : Int) (s : State) : Except FaultRecord State :=
  if InBounds s.tape a then .ok (s.writeCell a v) else .error (.outOfBounds a)

/-- `pc <- t` (R5). -/
def State.setPc (t : Int) (s : State) : State := { s with pc := t }

/-- `pc <- pc + n` by exact addition (R15, R84), whatever the width, DEDUCED (log 11); the source's `increaseIndex`. -/
def State.advance (n : Nat) (s : State) : State := { s with pc := s.pc + n }

/-- `OutputEmit(v)` (R20). -/
def State.emit (v : Int) (s : State) : State := { s with out := s.out ++ [v] }

/-- `STATUS <- HALTED` (R100). -/
def State.haltNow (s : State) : State := { s with status := .halted }

/-- Fault entry (R129): `STATUS <- FAULTED`, `FAULT <- F`, and nothing else changes. There is no return (R132). -/
def State.takeFault (f : FaultRecord) (s : State) : State := { s with status := .faulted, fault := some f }

/-- The integer the input port offers, if any (R19). With a finite `W` an integer outside the cell range "is refused at
the port" (R85): it is not offered. DESIGN CHOICE (log 6). -/
def inputOffer (s : State) : Option Int :=
  match s.input[s.inPos]? with
  | some v => if widthFits s.cfg.width v then some v else none
  | none => none

/-- The cursor after one integer has been consumed (R19). -/
def State.consumeInput (s : State) : State := { s with inPos := s.inPos + 1 }

/-- How an instruction ends: in the state it computed, or in the fault it raised, taken at the state in which the
instruction began (R105, R129): every check stands before every write, so nothing it would have written is written. -/
def settle (s : State) (r : Except FaultRecord State) : Host.Outcome State Fault Refusal :=
  match r with
  | .ok t => .next t
  | .error f => .next (s.takeFault f)

/-- Fetch (R103): the word at `pc`, one cell. -/
def fetchWord (s : State) : Except FaultRecord Int := memRead s.pc s

/-- Dispatch (R104): a function of the word alone, but for the `pc` its fault records. -/
def dispatch (pc w : Int) : Except FaultRecord Instr :=
  match decode w with
  | .ok i => .ok i
  | .error _ => .error (.unknownOpcode pc w)

/-- Fetch, then dispatch (R105). -/
def fetchInstr (s : State) : Except FaultRecord Instr :=
  match fetchWord s with
  | .error f => .error f
  | .ok w => dispatch s.pc w

/-- The cause code of a fault kind (R120, R127). -/
def FaultRecord.code : FaultRecord → Nat
  | .outOfBounds _ => 1
  | .unknownOpcode _ _ => 2
  | .malformedOperand _ _ => 3
  | .configurationFault => 4
  | .illegalMode _ _ _ => 5
  | .arithmeticOverflow _ => 6

/-- The tape with `cells` standing at address `p` and all other cells as they are, extended by zero cells where it is
too short. No instruction does this (R10): it stands for the host's load of a program (R21). -/
def placeCells (x : Tape) (p : Nat) (cells : List Int) : Tape :=
  (x ++ List.replicate (p - x.length) 0).take p ++ cells ++ x.drop (p + cells.length)

/-- The state a host has loaded with the word `w` and zero operand cells, up to the longest instruction's four, at the
place the next step fetches from. The fetch needs `STATUS = RUNNING` and a `pc` that names a cell, so these are set,
with `FAULT` empty as it is while the machine runs (R17); where `pc` is a cell address it stays. -/
def placeFetchWord (s : State) (w : Nat) : State :=
  let p : Int := if 0 ≤ s.pc then s.pc else 0
  { s with
    tape := placeCells s.tape p.toNat [(w : Int), 0, 0, 0]
    pc := p
    status := .running
    fault := none }

end Sys2Proof.Machine
end

