-- ==== Sys2Proof/Machine/Operands.lean ====
section
/-! DEFINITION. The operand resolver (40_operand_resolution.md): the strict read of an operand, the raw write target,
the tolerant probe, and the two operand shapes that several instructions share. -/

namespace Sys2Proof.Machine

/-- What an out-of-bounds position-mode target `p` of operand `k` raises: `POS_TARGET_FAULT` (R71, D6). -/
def posTargetFault (p : Int) (k : Nat) (s : State) : FaultRecord :=
  match s.cfg.posTargetFault with
  | .malformedOperand => .malformedOperand s.pc k
  | .outOfBounds => .outOfBounds p

/-- `ReadOperand(k)` (R71): `w` is the instruction word and `m` the mode that operand's digit selects. The mode is
checked first, then the operand cell, then in position mode the cell it points to. -/
def readOperand (w : Int) (m : Mode) (k : Nat) (s : State) : Except FaultRecord Int :=
  match m with
  | .illegal _ => .error (.illegalMode s.pc w k)
  | .immediate =>
    match cellAt s.tape (s.pc + k) with
    | none => .error (.malformedOperand s.pc k)
    | some p => .ok p
  | .position =>
    match cellAt s.tape (s.pc + k) with
    | none => .error (.malformedOperand s.pc k)
    | some p =>
      match cellAt s.tape p with
      | none => .error (posTargetFault p k s)
      | some v => .ok v

/-- `WriteTarget(k)` (R73): the operand cell's content is the destination, whatever its mode digit; both the cell and
the destination are checked before anything is written. -/
def writeTarget (k : Nat) (s : State) : Except FaultRecord Int :=
  match cellAt s.tape (s.pc + k) with
  | none => .error (.outOfBounds (s.pc + k))
  | some d => if InBounds s.tape d then .ok d else .error (.outOfBounds d)

/-- `ProbeOperand(q, k)` (R75): the tolerant resolution of operand `k` of the word at `q`; `none` is "absent". Mode
digits are defined for non-negative words only (R4), so a negative word probes as absent, DESIGN CHOICE (log 8). -/
def probeOperand (x : Tape) (q : Int) (k : Nat) : Option Int :=
  match cellAt x q with
  | none => none
  | some w =>
    if w < 0 then none
    else
      match modeAt k w.toNat with
      | .illegal _ => none
      | .immediate => cellAt x (q + k)
      | .position =>
        match cellAt x (q + k) with
        | none => none
        | some p => cellAt x p

/-- Format `F3` (R56, R80): read operands 1 and 2 in order, then the write target, then the result, then the one
write and the advance by 4 (R36, R76, R128). -/
def threeOperand (w : Int) (m1 m2 : Mode) (result : Int → Int → Except FaultRecord Int) (s : State) :
    Except FaultRecord State := do
  let a ← readOperand w m1 1 s
  let b ← readOperand w m2 2 s
  let d ← writeTarget 3 s
  let v ← result a b
  return (s.writeCell d v).advance 4

/-- Format `F2J` (R56): both operands are resolved before the condition is tested (R93); the target is not checked
(R92). -/
def jumpIf (w : Int) (m1 m2 : Mode) (taken : Int → Bool) (s : State) : Except FaultRecord State := do
  let c ← readOperand w m1 1 s
  let t ← readOperand w m2 2 s
  return if taken c then s.setPc t else s.advance 3

end Sys2Proof.Machine
end

