-- ==== Sys2Proof/Machine/Arithmetic.lean ====
section
/-! DEFINITION. ADD and MUL (41_arithmetic.md). -/

namespace Sys2Proof.Machine

/-- ADD (R81): `x[d] <- a + b`, the exact sum. -/
def execAdd (m1 m2 : Mode) (spare : Nat) (s : State) : Host.Outcome State Fault Refusal :=
  settle s (threeOperand (encode (.add m1 m2 spare)) m1 m2 (fun a b => arithResult (a + b) s) s)

/-- MUL (R82): `x[d] <- a * b`, the whole product. -/
def execMul (m1 m2 : Mode) (spare : Nat) (s : State) : Host.Outcome State Fault Refusal :=
  settle s (threeOperand (encode (.mul m1 m2 spare)) m1 m2 (fun a b => arithResult (a * b) s) s)

end Sys2Proof.Machine
end

