-- ==== Sys2Proof/Machine/Compare.lean ====
section
/-! DEFINITION. LT and EQ (44_compare.md). -/

namespace Sys2Proof.Machine

/-- LT (R95): the signed, strict comparison; no overflow fault is possible. -/
def execLt (m1 m2 : Mode) (spare : Nat) (s : State) : Host.Outcome State Fault Refusal :=
  settle s (threeOperand (encode (.lt m1 m2 spare)) m1 m2 (fun a b => .ok (truthValue (decide (a < b)))) s)

/-- EQ (R96): equality of integers. -/
def execEq (m1 m2 : Mode) (spare : Nat) (s : State) : Host.Outcome State Fault Refusal :=
  settle s (threeOperand (encode (.eq m1 m2 spare)) m1 m2 (fun a b => .ok (truthValue (decide (a = b)))) s)

end Sys2Proof.Machine
end

