-- ==== Sys2Proof/Machine/Halt.lean ====
section
/-! DEFINITION. HALT (45_halt.md). -/

namespace Sys2Proof.Machine

/-- HALT (R100): `STATUS <- HALTED`; `pc` stays, and no digit above the opcode is examined (R60). -/
def execHalt (_spare : Nat) (s : State) : Host.Outcome State Fault Refusal :=
  .next s.haltNow

end Sys2Proof.Machine
end

