-- ==== Sys2Proof/Machine/InputOutput.lean ====
section
/-! DEFINITION. IN and OUT (42_io.md). -/

namespace Sys2Proof.Machine

/-- IN (R85): the target is resolved, then the port is asked. While it offers no integer the machine holds: it "stays
in `STATUS = RUNNING` with `pc` at the IN instruction and nothing changed" (R86), a next state equal to this one,
DESIGN CHOICE (log 1). The `spare` digits, the write operand's mode digit among them, are not examined (R60). -/
def execInp (_spare : Nat) (s : State) : Host.Outcome State Fault Refusal :=
  settle s do
    let d ← writeTarget 1 s
    match inputOffer s with
    | none => return s
    | some v => return ((s.writeCell d v).consumeInput).advance 2

/-- OUT (R87): emits operand 1. -/
def execOut (m1 : Mode) (spare : Nat) (s : State) : Host.Outcome State Fault Refusal :=
  settle s do
    let a ← readOperand (encode (.out m1 spare)) m1 1 s
    return (s.emit a).advance 2

end Sys2Proof.Machine
end

