-- ==== Sys2Proof/Machine/Jump.lean ====
section
/-! DEFINITION. JT and JF (43_jump.md). -/

namespace Sys2Proof.Machine

/-- JT (R90): `pc <- t` when the condition is not zero, else `pc + 3`. -/
def execJt (m1 m2 : Mode) (spare : Nat) (s : State) : Host.Outcome State Fault Refusal :=
  settle s (jumpIf (encode (.jt m1 m2 spare)) m1 m2 (fun c => conditionHolds c) s)

/-- JF (R91): `pc <- t` when the condition is zero, else `pc + 3`. -/
def execJf (m1 m2 : Mode) (spare : Nat) (s : State) : Host.Outcome State Fault Refusal :=
  settle s (jumpIf (encode (.jf m1 m2 spare)) m1 m2 (fun c => !conditionHolds c) s)

end Sys2Proof.Machine
end

