-- ==== Sys2Proof/Machine/Dispatch.lean ====
section
/-! DEFINITION. The meaning of each instruction, one arm per constructor (46_dispatch_and_run.md R105). -/

namespace Sys2Proof.Machine

def exec (i : Instr) (s : State) : Host.Outcome State Fault Refusal :=
  match i with
  | .add m1 m2 spare => Sys2Proof.Machine.execAdd m1 m2 spare s
  | .mul m1 m2 spare => Sys2Proof.Machine.execMul m1 m2 spare s
  | .inp spare => Sys2Proof.Machine.execInp spare s
  | .out m1 spare => Sys2Proof.Machine.execOut m1 spare s
  | .jt m1 m2 spare => Sys2Proof.Machine.execJt m1 m2 spare s
  | .jf m1 m2 spare => Sys2Proof.Machine.execJf m1 m2 spare s
  | .lt m1 m2 spare => Sys2Proof.Machine.execLt m1 m2 spare s
  | .eq m1 m2 spare => Sys2Proof.Machine.execEq m1 m2 spare s
  | .halt spare => Sys2Proof.Machine.execHalt spare s

end Sys2Proof.Machine
end

