-- ==== Sys2Proof/Machine/Step.lean ====
section
/-! DEFINITION. One step of the machine (46_dispatch_and_run.md R105), and the placing of a word where it fetches. -/

namespace Sys2Proof.Machine

/-- One step (R105): with `STATUS = RUNNING`, fetch, dispatch and execute; a fault of the fetch or of the dispatch is
taken at this state (R129). In the two terminal states no step exists (R106): a named stop, DESIGN CHOICE (log 2). -/
def step (s : State) : Host.Outcome State Fault Refusal :=
  match s.status with
  | .halted => .fault .noStepAfterHalt
  | .faulted => .fault .noStepAfterFault
  | .running =>
    match fetchInstr s with
    | .error f => .next (s.takeFault f)
    | .ok i => exec i s

/-- The state with the instruction of a table word where the next step fetches it: a cell holds the whole number `w`
(R4, R33), so `nbits` selects nothing. It stands for a host's load of a program (log 5). -/
def State.withFetchWord (s : State) (_nbits w : Nat) : State := placeFetchWord s w

end Sys2Proof.Machine
end

