-- ==== Sys2Proof/Machine/Assembly.lean ====
section
/-! DEFINITION. The spec's assembly notation (30_encoding.md R63, R64): statements and the cells they assemble to. -/

namespace Sys2Proof.Machine

/-- A read operand: `[n]` for position mode, `#n` for immediate mode (R63). -/
inductive ReadOp where
  | pos (n : Int)
  | imm (n : Int)
  deriving DecidableEq, Repr

/-- The mode an operand is assembled with. -/
def ReadOp.mode : ReadOp → Mode
  | .pos _ => .position
  | .imm _ => .immediate

/-- The content of the operand's cell. -/
def ReadOp.cell : ReadOp → Int
  | .pos n => n
  | .imm n => n

/-- The statement forms of R63; a write operand `@d` is the address `d`. -/
inductive Stmt where
  | add (a b : ReadOp) (d : Int)
  | mul (a b : ReadOp) (d : Int)
  | inp (d : Int)
  | out (a : ReadOp)
  | jt (a t : ReadOp)
  | jf (a t : ReadOp)
  | lt (a b : ReadOp) (d : Int)
  | eq (a b : ReadOp) (d : Int)
  | halt
  | data (n : Int)
  deriving DecidableEq, Repr

/-- The machine instruction of a statement: every digit that is not a read operand's mode is 0 (R63). `DATA` is none. -/
def Stmt.instr : Stmt → Option Instr
  | .add a b _ => some (.add a.mode b.mode 0)
  | .mul a b _ => some (.mul a.mode b.mode 0)
  | .inp _ => some (.inp 0)
  | .out a => some (.out a.mode 0)
  | .jt a t => some (.jt a.mode t.mode 0)
  | .jf a t => some (.jf a.mode t.mode 0)
  | .lt a b _ => some (.lt a.mode b.mode 0)
  | .eq a b _ => some (.eq a.mode b.mode 0)
  | .halt => some (.halt 0)
  | .data _ => none

/-- The operand cells of a statement, in order; the one cell of `DATA`. -/
def Stmt.operandCells : Stmt → List Int
  | .add a b d => [a.cell, b.cell, d]
  | .mul a b d => [a.cell, b.cell, d]
  | .inp d => [d]
  | .out a => [a.cell]
  | .jt a t => [a.cell, t.cell]
  | .jf a t => [a.cell, t.cell]
  | .lt a b d => [a.cell, b.cell, d]
  | .eq a b d => [a.cell, b.cell, d]
  | .halt => []
  | .data n => [n]

/-- The cells a statement assembles to: the instruction word, then the operand cells (R63). -/
def Stmt.assemble (st : Stmt) : List Int :=
  match st.instr with
  | some i => encode i :: st.operandCells
  | none => st.operandCells

/-- A program text: its statements in address order from 0 (R62). -/
def assemble (program : List Stmt) : List Int := program.flatMap Stmt.assemble

end Sys2Proof.Machine
end

