-- ==== Sys2Proof/Machine/Diagnostic.lean ====
section
/-! DEFINITION. The diagnostic walk (46_dispatch_and_run.md R115, R116): a pure function of the tape, outside the step. -/

namespace Sys2Proof.Machine

/-- One chunk of the walk's report: the cells of one instruction, clipped at the tail (D20), or the raw rest of the tape
after a word that spells no instruction. -/
inductive Chunk where
  | instruction (cells : List Int)
  | raw (cells : List Int)
  deriving DecidableEq, Repr

/-- The cells a chunk shows. -/
def Chunk.cells : Chunk → List Int
  | .instruction c => c
  | .raw c => c

/-- The walk over the cells that are left, `x[q .. LEN-1]`; each instruction takes at least one of them, so that as many
rounds as there are cells are enough. -/
def walkFrom : Nat → List Int → List Chunk
  | 0, _ => []
  | _ + 1, [] => []
  | fuel + 1, w :: rest =>
    match decode w with
    | .error _ => [.raw (w :: rest)]
    | .ok i => .instruction ((w :: rest).take i.length) :: walkFrom fuel ((w :: rest).drop i.length)

/-- `Walk(x)`, from address 0 (R115). -/
def walk (x : Tape) : List Chunk := walkFrom x.length x

end Sys2Proof.Machine
end

