-- ==== Sys2Proof/Machine/HostPort.lean ====
section
/-! DEFINITION. The host's ports (10_state.md R19 to R23) and the run loop with its result (46_dispatch_and_run.md R107,
R108). Nothing here is part of a step. -/

namespace Sys2Proof.Machine

/-- The load port and reset (R21, R25, R150): `IMAGE`, `IP_INIT` (0 when the host gives none) and the integers the
input source holds at reset. Any image and any start pointer are accepted (D19); with a finite `W` an image or input
value outside the cell range is refused, `none` (R84). -/
def load (cfg : Config) (image : List Int) (ipInit : Int := 0) (input : List Int := []) : Option State :=
  if Memory.wf cfg.width image && input.all (widthFits cfg.width) then
    some { tape := image, pc := ipInit, status := .running, fault := none, inPos := 0, out := [], input := input, cfg := cfg }
  else none

/-- The host makes one more integer available at the input port, between two steps (R19, R86); with a finite `W` an
integer outside the cell range is refused (R84). -/
def State.supply (v : Int) (s : State) : Option State :=
  if widthFits s.cfg.width v then some { s with input := s.input ++ [v] } else none

/-- `shouldProgramContinue()` (R16). -/
def State.shouldProgramContinue (s : State) : Bool := decide (s.status = .running)

/-- The input hold (R86): the machine is running at an IN whose target is in order, and the port offers no integer, so
that the step is not enabled. -/
def State.held (s : State) : Bool :=
  match s.status, fetchInstr s, writeTarget 1 s, inputOffer s with
  | .running, .ok (.inp _), .ok _, none => true
  | _, _, _, _ => false

/-- The result port (R22): `x[0]` once the machine has halted, nothing otherwise. -/
def State.result (s : State) : Option Int :=
  match s.status with
  | .halted => cellAt s.tape 0
  | _ => none

/-- How a run stands after some number of steps: it ended in `HALTED` with a result, it ended in `FAULTED` with a fault
and no result (R107), or it has not ended. -/
inductive RunEnd where
  | halted (result : Option Int) (final : State)
  | faulted (record : Option FaultRecord) (last : State)
  | unfinished (now : State)
  deriving DecidableEq, Repr

/-- `Run` (R107): step while `STATUS = RUNNING`, at most `fuel` times. The fuel is the executor's, not the machine's. -/
def runFor : Nat → State → RunEnd
  | fuel, s =>
    match s.status with
    | .halted => .halted s.result s
    | .faulted => .faulted s.fault s
    | .running =>
      match fuel with
      | 0 => .unfinished s
      | fuel + 1 =>
        match step s with
        | .next t => runFor fuel t
        | .fault _ => .unfinished s
        | .refused _ => .unfinished s

end Sys2Proof.Machine
end

