-- ==== Sys2Proof/Safety.lean ====
section
/-! DEFINITION. What counts as a good state and as a run, in the terms the statements use. -/

namespace Sys2Proof.Machine

/-- The invariant of the machine: what is true at reset and after every step. -/
structure State.Inv (s : State) : Prop where
  /-- the parameters are those of a machine that can exist -/
  cfg_wf : s.cfg.wf = true
  /-- every cell holds an integer of the machine's width (R10, R84) -/
  tape_wf : Memory.wf s.cfg.width s.tape = true
  /-- every emitted value is an operand value, hence of the machine's width (R20) -/
  out_wf : s.out.all (widthFits s.cfg.width) = true
  /-- the cursor never passes the integers the host has supplied (R19) -/
  cursor_le : s.inPos ≤ s.input.length
  /-- "`FAULT` is empty while `STATUS` is not `FAULTED`, and otherwise holds the kind of the fault" (R17) -/
  fault_iff : s.status = .faulted ↔ s.fault.isSome = true
  /-- a halted machine's `pc` points at a HALT's own word, inside the tape (R100, R22) -/
  halt_word : s.status = .halted → ∃ spare, fetchInstr s = .ok (.halt spare)

/-- What can happen to a machine between reset and the end of its run: its own steps, and the host's making one more
integer available at the input port (R24, R155). -/
inductive Reaches (s : State) : State → Prop where
  | refl : Reaches s s
  | step {t u : State} : Reaches s t → Machine.step t = .next u → Reaches s u
  | supply {t u : State} (v : Int) : Reaches s t → t.supply v = some u → Reaches s u

/-- The instructions of formats F3 and F1W, the only ones that write the tape (R11), with the number of the operand that
is the write target. -/
def storeOperand : Instr → Option Nat
  | .add _ _ _ => some 3
  | .mul _ _ _ => some 3
  | .inp _ => some 1
  | .out _ _ => none
  | .jt _ _ _ => none
  | .jf _ _ _ => none
  | .lt _ _ _ => some 3
  | .eq _ _ _ => some 3
  | .halt _ => none

/-- The fault kinds read operand `k` of the instruction word `w` can raise: an illegal mode digit, an absent operand, or
an out-of-bounds position target under its other name (R133, R121). -/
def operandFault (w : Int) (k : Nat) (s : State) (f : FaultRecord) : Prop :=
  f = .illegalMode s.pc w k ∨ f = .malformedOperand s.pc k ∨
    (s.cfg.posTargetFault = .outOfBounds ∧ ∃ p, ¬ InBounds s.tape p ∧ f = .outOfBounds p)

/-- The fault kinds write operand `k` can raise: its cell or its destination is out of bounds (R133, R73). -/
def targetFault (k : Nat) (s : State) (f : FaultRecord) : Prop :=
  f = .outOfBounds (s.pc + k) ∨ ∃ d, cellAt s.tape (s.pc + k) = some d ∧ ¬ InBounds s.tape d ∧ f = .outOfBounds d

/-- Which instruction can raise which fault once it has been chosen: the rows of R133's table. -/
def faultAllowed (i : Instr) (s : State) (f : FaultRecord) : Prop :=
  match i with
  | .add _ _ _ | .mul _ _ _ =>
    operandFault (encode i) 1 s f ∨ operandFault (encode i) 2 s f ∨ targetFault 3 s f ∨
      (s.cfg.width ≠ .unbounded ∧ f = .arithmeticOverflow s.pc)
  | .lt _ _ _ | .eq _ _ _ =>
    operandFault (encode i) 1 s f ∨ operandFault (encode i) 2 s f ∨ targetFault 3 s f
  | .inp _ => targetFault 1 s f
  | .out _ _ => operandFault (encode i) 1 s f
  | .jt _ _ _ | .jf _ _ _ => operandFault (encode i) 1 s f ∨ operandFault (encode i) 2 s f
  | .halt _ => False

end Sys2Proof.Machine
end

