-- ==== Sys2Proof/Certificates/Slice0/Obligations.lean ====
section
/-! DEFINITION. The statements for the provers: what the spec's numbered rules say the machine does. Each names the rule it
comes from; "log n" is notes/assumptions/n.md, named where a clause is the model's own choice. -/

open Sys2Proof Sys2Proof.Machine

/-! ### Encoding -/

/-- R51, R53, R60, R65: every well-formed instruction, with every mode digit 0 to 9 and every unexamined digit, is read
back from its word. -/
def Obligations.DecodeAfterEncode : Prop :=
  ∀ i : Instr, i.wf = true → decode (encode i) = .ok i

/-- R51, R122: a word that decodes is the encoding of what it decodes to (so the raw word a fault records is the word
fetched), and what it decodes to is well formed. -/
def Obligations.EncodeAfterDecode : Prop :=
  ∀ (w : Int) (i : Instr), decode w = .ok i → encode i = w ∧ i.wf = true

/-- R51 to R54, R65: `w mod 100` selects the operation, and the mode digits are the hundreds and the thousands digit of
the operands the operation reads; a `w mod 100` in no row, and a negative word, select none (R57, R58). -/
def Obligations.OpcodeAndModesAreDecimalDigits : Prop :=
  ∀ w : Nat,
    (w % 100 = 1 → ∃ m1 m2 sp, decode w = .ok (.add m1 m2 sp) ∧ m1.digit = w / 100 % 10 ∧ m2.digit = w / 1000 % 10) ∧
    (w % 100 = 2 → ∃ m1 m2 sp, decode w = .ok (.mul m1 m2 sp) ∧ m1.digit = w / 100 % 10 ∧ m2.digit = w / 1000 % 10) ∧
    (w % 100 = 3 → ∃ sp, decode w = .ok (.inp sp)) ∧
    (w % 100 = 4 → ∃ m1 sp, decode w = .ok (.out m1 sp) ∧ m1.digit = w / 100 % 10) ∧
    (w % 100 = 5 → ∃ m1 m2 sp, decode w = .ok (.jt m1 m2 sp) ∧ m1.digit = w / 100 % 10 ∧ m2.digit = w / 1000 % 10) ∧
    (w % 100 = 6 → ∃ m1 m2 sp, decode w = .ok (.jf m1 m2 sp) ∧ m1.digit = w / 100 % 10 ∧ m2.digit = w / 1000 % 10) ∧
    (w % 100 = 7 → ∃ m1 m2 sp, decode w = .ok (.lt m1 m2 sp) ∧ m1.digit = w / 100 % 10 ∧ m2.digit = w / 1000 % 10) ∧
    (w % 100 = 8 → ∃ m1 m2 sp, decode w = .ok (.eq m1 m2 sp) ∧ m1.digit = w / 100 % 10 ∧ m2.digit = w / 1000 % 10) ∧
    (w % 100 = 99 → ∃ sp, decode w = .ok (.halt sp)) ∧
    (w % 100 ∉ [1, 2, 3, 4, 5, 6, 7, 8, 99] → ∀ i, decode w ≠ .ok i) ∧
    (∀ v : Int, v < 0 → ∀ i, decode v ≠ .ok i)

/-- R55: the length is a function of the opcode alone, 4, 2, 3 or 1 cells; the table's opcodes are pairwise distinct and
positive (R65, R110). -/
def Obligations.LengthIsAFunctionOfTheOpcode : Prop :=
  (∀ (w : Nat) (i : Instr), decode w = .ok i →
    (w % 100 ∈ [1, 2, 7, 8] → i.length = 4) ∧ (w % 100 ∈ [3, 4] → i.length = 2) ∧
    (w % 100 ∈ [5, 6] → i.length = 3) ∧ (w % 100 = 99 → i.length = 1)) ∧
  (opcodeTable.map (·.opcode)).Nodup ∧ ∀ r ∈ opcodeTable, 0 < r.opcode

/-- R65: the 28 canonical words, in each group of four in the order (position, position), (immediate, position),
(position, immediate), (immediate, immediate). -/
def Obligations.CanonicalWordsDecode : Prop :=
  [1, 101, 1001, 1101].map decode = [.ok (.add .position .position 0), .ok (.add .immediate .position 0),
    .ok (.add .position .immediate 0), .ok (.add .immediate .immediate 0)] ∧
  [2, 102, 1002, 1102].map decode = [.ok (.mul .position .position 0), .ok (.mul .immediate .position 0),
    .ok (.mul .position .immediate 0), .ok (.mul .immediate .immediate 0)] ∧
  [3].map decode = [.ok (.inp 0)] ∧
  [4, 104].map decode = [.ok (.out .position 0), .ok (.out .immediate 0)] ∧
  [5, 105, 1005, 1105].map decode = [.ok (.jt .position .position 0), .ok (.jt .immediate .position 0),
    .ok (.jt .position .immediate 0), .ok (.jt .immediate .immediate 0)] ∧
  [6, 106, 1006, 1106].map decode = [.ok (.jf .position .position 0), .ok (.jf .immediate .position 0),
    .ok (.jf .position .immediate 0), .ok (.jf .immediate .immediate 0)] ∧
  [7, 107, 1007, 1107].map decode = [.ok (.lt .position .position 0), .ok (.lt .immediate .position 0),
    .ok (.lt .position .immediate 0), .ok (.lt .immediate .immediate 0)] ∧
  [8, 108, 1008, 1108].map decode = [.ok (.eq .position .position 0), .ok (.eq .immediate .position 0),
    .ok (.eq .position .immediate 0), .ok (.eq .immediate .immediate 0)] ∧
  [99].map decode = [.ok (.halt 0)] ∧
  opcodeTable.flatMap (·.canonicalWords) = [1, 101, 1001, 1101, 2, 102, 1002, 1102, 3, 4, 104, 5, 105, 1005, 1105,
    6, 106, 1006, 1106, 7, 107, 1007, 1107, 8, 108, 1008, 1108, 99]

/-- R57: a non-negative word whose `w mod 100` is in no row faults at dispatch with `pc` and the raw word. -/
def Obligations.UnknownOpcodeFaultsAtDispatch : Prop :=
  ∀ (s : State) (w : Int), s.status = .running → cellAt s.tape s.pc = some w → 0 ≤ w →
    w % 100 ∉ ([1, 2, 3, 4, 5, 6, 7, 8, 99] : List Int) →
    step s = .next { s with status := .faulted, fault := some (.unknownOpcode s.pc w) }

/-- R58 (the spec's decision D3): a negative word faults at dispatch with `pc` and the raw word. -/
def Obligations.NegativeWordFaultsAtDispatch : Prop :=
  ∀ (s : State) (w : Int), s.status = .running → cellAt s.tape s.pc = some w → w < 0 →
    step s = .next { s with status := .faulted, fault := some (.unknownOpcode s.pc w) }

/-- R60 (the spec's decision D5 for the spare digits): digits that are not examined have no effect: with legal modes the
outcome is the same, and with an illegal mode it differs at most in the raw word that `IllegalMode` records, the kind, the
`pc` and the operand number being the same; with the words R60 gives as examples. -/
def Obligations.UnexaminedDigitsHaveNoEffect : Prop :=
  (∀ (op : Mode → Mode → Nat → Instr) (m1 m2 : Mode) (sp sp' : Nat) (s : State),
    op ∈ [Instr.add, Instr.mul, Instr.jt, Instr.jf, Instr.lt, Instr.eq] →
    (m1.legal = true → m2.legal = true → exec (op m1 m2 sp) s = exec (op m1 m2 sp') s) ∧
    ∃ t u, exec (op m1 m2 sp) s = .next t ∧ exec (op m1 m2 sp') s = .next u ∧
      { u with fault := none } = { t with fault := none } ∧
      (u.fault = t.fault ∨ ∃ k, t.fault = some (.illegalMode s.pc (encode (op m1 m2 sp)) k) ∧
        u.fault = some (.illegalMode s.pc (encode (op m1 m2 sp')) k))) ∧
  (∀ (m1 : Mode) (sp sp' : Nat) (s : State),
    (m1.legal = true → exec (.out m1 sp) s = exec (.out m1 sp') s) ∧
    ∃ t u, exec (.out m1 sp) s = .next t ∧ exec (.out m1 sp') s = .next u ∧
      { u with fault := none } = { t with fault := none } ∧
      (u.fault = t.fault ∨ t.fault = some (.illegalMode s.pc (encode (.out m1 sp)) 1) ∧
        u.fault = some (.illegalMode s.pc (encode (.out m1 sp')) 1))) ∧
  (∀ (sp sp' : Nat) (s : State), exec (.inp sp) s = exec (.inp sp') s ∧ exec (.halt sp) s = exec (.halt sp') s) ∧
  decode 11101 = .ok (.add .immediate .immediate 1) ∧ decode 20001 = .ok (.add .position .position 2) ∧
  decode 103 = .ok (.inp 1) ∧ decode 199 = .ok (.halt 1) ∧ decode 10099 = .ok (.halt 100) ∧
  decode 1234501 = .ok (.add (.illegal 5) (.illegal 4) 123) ∧ decode 1200001 = .ok (.add .position .position 120)

/-! ### Operands and memory -/

/-- R71 (the spec's decisions D4 and D6): `ReadOperand(k)` by the mode digit of the word: the illegal-mode check first, then the operand cell, then in
position mode the cell it points to. -/
def Obligations.ReadOperandFollowsTheModeDigit : Prop :=
  ∀ (s : State) (w k : Nat),
    (w / 10 ^ (k + 1) % 10 ≠ 0 → w / 10 ^ (k + 1) % 10 ≠ 1 →
      readOperand w (modeAt k w) k s = .error (.illegalMode s.pc w k)) ∧
    (w / 10 ^ (k + 1) % 10 ≤ 1 → ¬ InBounds s.tape (s.pc + k) →
      readOperand w (modeAt k w) k s = .error (.malformedOperand s.pc k)) ∧
    (∀ p, w / 10 ^ (k + 1) % 10 = 1 → cellAt s.tape (s.pc + k) = some p → readOperand w (modeAt k w) k s = .ok p) ∧
    (∀ p v, w / 10 ^ (k + 1) % 10 = 0 → cellAt s.tape (s.pc + k) = some p → cellAt s.tape p = some v →
      readOperand w (modeAt k w) k s = .ok v) ∧
    (∀ p, w / 10 ^ (k + 1) % 10 = 0 → cellAt s.tape (s.pc + k) = some p → ¬ InBounds s.tape p →
      readOperand w (modeAt k w) k s =
        .error (if s.cfg.posTargetFault = .malformedOperand then .malformedOperand s.pc k else .outOfBounds p))

/-- R73 (the spec's decisions D7 and D9): `WriteTarget(k)` is the operand cell's content, in bounds, or `OutOfBounds` of the address that is not. -/
def Obligations.WriteTargetIsTheRawCell : Prop :=
  ∀ (s : State) (k : Nat),
    (¬ InBounds s.tape (s.pc + k) → writeTarget k s = .error (.outOfBounds (s.pc + k))) ∧
    (∀ d, cellAt s.tape (s.pc + k) = some d → InBounds s.tape d → writeTarget k s = .ok d) ∧
    (∀ d, cellAt s.tape (s.pc + k) = some d → ¬ InBounds s.tape d → writeTarget k s = .error (.outOfBounds d))

/-- R75: for a legal mode digit `ReadOperand(k)` at `pc` is `ProbeOperand(pc, k)` with "absent" turned into the fault of
R71. -/
def Obligations.StrictOperandIsTheProbeUnwrapped : Prop :=
  ∀ (s : State) (w k : Nat), cellAt s.tape s.pc = some (w : Int) → (modeAt k w).legal = true →
    (∀ v, probeOperand s.tape s.pc k = some v → readOperand w (modeAt k w) k s = .ok v) ∧
    (probeOperand s.tape s.pc k = none → s.cfg.posTargetFault = .malformedOperand →
      readOperand w (modeAt k w) k s = .error (.malformedOperand s.pc k)) ∧
    (probeOperand s.tape s.pc k = none → ∀ v, readOperand w (modeAt k w) k s ≠ .ok v)

/-- R31, R35, R38: a checked access succeeds exactly inside the tape and reports the address otherwise; a read returns
the value last written, a write changes no other cell, and the length stays. -/
def Obligations.CheckedAccessReadsWhatWasWritten : Prop :=
  ∀ (s : State) (a v : Int),
    (InBounds s.tape a → (∃ u, memRead a s = .ok u) ∧ ∃ t, memWrite a v s = .ok t ∧ memRead a t = .ok v ∧
      t.tape.length = s.tape.length ∧ (∀ b, b ≠ a → cellAt t.tape b = cellAt s.tape b) ∧
      { t with tape := s.tape } = s) ∧
    (¬ InBounds s.tape a → memRead a s = .error (.outOfBounds a) ∧ memWrite a v s = .error (.outOfBounds a))

/-- R84 (the spec's decisions D1 and D2): the cell range is everything for an unbounded `W`, and `[-2^(W-1), 2^(W-1) - 1]` for a finite one. -/
def Obligations.CellRangeOfTheWidth : Prop :=
  ∀ v : Int, widthFits .unbounded v = true ∧
    ∀ n : Nat, widthFits (.bits n) v = true ↔ -(2 ^ (n - 1)) ≤ v ∧ v ≤ 2 ^ (n - 1) - 1

/-! ### The instructions -/

/-- R81: ADD writes the exact sum to the raw target and advances by 4; its faults in the order they are checked. -/
def Obligations.AddWritesTheSum : Prop :=
  (∀ (m1 m2 : Mode) (sp : Nat) (s : State) (w : Int), w = encode (.add m1 m2 sp) →
    w % 100 = 1 ∧
    (∀ a b d, readOperand w m1 1 s = .ok a → readOperand w m2 2 s = .ok b → writeTarget 3 s = .ok d →
      widthFits s.cfg.width (a + b) = true →
      exec (.add m1 m2 sp) s = .next { s with tape := setCell s.tape d (a + b), pc := s.pc + 4 }) ∧
    (∀ f, readOperand w m1 1 s = .error f → operandFault w 1 s f ∧ exec (.add m1 m2 sp) s = .next (s.takeFault f)) ∧
    (∀ a f, readOperand w m1 1 s = .ok a → readOperand w m2 2 s = .error f →
      operandFault w 2 s f ∧ exec (.add m1 m2 sp) s = .next (s.takeFault f)) ∧
    (∀ a b f, readOperand w m1 1 s = .ok a → readOperand w m2 2 s = .ok b → writeTarget 3 s = .error f →
      targetFault 3 s f ∧ exec (.add m1 m2 sp) s = .next (s.takeFault f)) ∧
    (∀ a b d, readOperand w m1 1 s = .ok a → readOperand w m2 2 s = .ok b → writeTarget 3 s = .ok d →
      widthFits s.cfg.width (a + b) = false →
      exec (.add m1 m2 sp) s = .next (s.takeFault (.arithmeticOverflow s.pc)))) ∧
  [1, 101, 1001, 1101].map decode = [.ok (.add .position .position 0), .ok (.add .immediate .position 0),
    .ok (.add .position .immediate 0), .ok (.add .immediate .immediate 0)] ∧
  (∀ s : State, s.tape = [1, 0, 0, 0, 99] → s.pc = 0 → s.status = .running → s.cfg.width = .unbounded →
    step s = .next { s with tape := [2, 0, 0, 0, 99], pc := 4 })

/-- R82: MUL writes the exact product to the raw target and advances by 4; its faults in the order they are checked. -/
def Obligations.MulWritesTheProduct : Prop :=
  (∀ (m1 m2 : Mode) (sp : Nat) (s : State) (w : Int), w = encode (.mul m1 m2 sp) →
    w % 100 = 2 ∧
    (∀ a b d, readOperand w m1 1 s = .ok a → readOperand w m2 2 s = .ok b → writeTarget 3 s = .ok d →
      widthFits s.cfg.width (a * b) = true →
      exec (.mul m1 m2 sp) s = .next { s with tape := setCell s.tape d (a * b), pc := s.pc + 4 }) ∧
    (∀ f, readOperand w m1 1 s = .error f → operandFault w 1 s f ∧ exec (.mul m1 m2 sp) s = .next (s.takeFault f)) ∧
    (∀ a f, readOperand w m1 1 s = .ok a → readOperand w m2 2 s = .error f →
      operandFault w 2 s f ∧ exec (.mul m1 m2 sp) s = .next (s.takeFault f)) ∧
    (∀ a b f, readOperand w m1 1 s = .ok a → readOperand w m2 2 s = .ok b → writeTarget 3 s = .error f →
      targetFault 3 s f ∧ exec (.mul m1 m2 sp) s = .next (s.takeFault f)) ∧
    (∀ a b d, readOperand w m1 1 s = .ok a → readOperand w m2 2 s = .ok b → writeTarget 3 s = .ok d →
      widthFits s.cfg.width (a * b) = false →
      exec (.mul m1 m2 sp) s = .next (s.takeFault (.arithmeticOverflow s.pc)))) ∧
  [2, 102, 1002, 1102].map decode = [.ok (.mul .position .position 0), .ok (.mul .immediate .position 0),
    .ok (.mul .position .immediate 0), .ok (.mul .immediate .immediate 0)] ∧
  (∀ s : State, s.tape = [1002, 4, 3, 4, 33] → s.pc = 0 → s.status = .running → s.cfg.width = .unbounded →
    step s = .next { s with tape := [1002, 4, 3, 4, 99], pc := 4 })

/-- R85: IN writes the next input integer to the raw target, consumes it and advances by 2; a target out of bounds faults
before the port is asked, so that nothing is consumed (the spec's decision D9). An input integer that does not fit a
finite `W` does not count as available (log 6). -/
def Obligations.InStoresTheNextInput : Prop :=
  (∀ (sp : Nat) (s : State), (encode (.inp sp)) % 100 = 3 ∧
    (∀ d v, writeTarget 1 s = .ok d → s.input[s.inPos]? = some v → widthFits s.cfg.width v = true →
      exec (.inp sp) s =
        .next { s with tape := setCell s.tape d v, inPos := s.inPos + 1, pc := s.pc + 2 }) ∧
    (∀ f, writeTarget 1 s = .error f → targetFault 1 s f ∧ exec (.inp sp) s = .next (s.takeFault f))) ∧
  [3].map decode = [.ok (.inp 0)] ∧ decode 103 = .ok (.inp 1) ∧
  (∀ s : State, s.tape = [3, 3, 99, 0] → s.pc = 0 → s.status = .running → s.input = [77] → s.inPos = 0 →
    s.cfg.width = .unbounded → step s = .next { s with tape := [3, 3, 99, 77], pc := 2, inPos := 1 })

/-- R87: OUT appends operand 1 to the output log and advances by 2; a fault emits nothing. -/
def Obligations.OutEmitsOperandOne : Prop :=
  (∀ (m1 : Mode) (sp : Nat) (s : State) (w : Int), w = encode (.out m1 sp) →
    w % 100 = 4 ∧
    (∀ a, readOperand w m1 1 s = .ok a → exec (.out m1 sp) s = .next { s with out := s.out ++ [a], pc := s.pc + 2 }) ∧
    (∀ f, readOperand w m1 1 s = .error f → operandFault w 1 s f ∧ exec (.out m1 sp) s = .next (s.takeFault f))) ∧
  [4, 104].map decode = [.ok (.out .position 0), .ok (.out .immediate 0)] ∧
  (∀ s : State, s.tape = [104, -9, 99] → s.pc = 0 → s.status = .running → s.out = [] →
    step s = .next { s with out := [-9], pc := 2 })

/-- R90: JT goes to exactly operand 2 when operand 1 is not zero, and advances by exactly 3 otherwise; both operands are
resolved first, and nothing but `pc` changes. -/
def Obligations.JtJumpsWhenNotZero : Prop :=
  (∀ (m1 m2 : Mode) (sp : Nat) (s : State) (w : Int), w = encode (.jt m1 m2 sp) →
    w % 100 = 5 ∧
    (∀ c t, readOperand w m1 1 s = .ok c → readOperand w m2 2 s = .ok t →
      (c ≠ 0 → exec (.jt m1 m2 sp) s = .next { s with pc := t }) ∧
      (c = 0 → exec (.jt m1 m2 sp) s = .next { s with pc := s.pc + 3 })) ∧
    (∀ f, readOperand w m1 1 s = .error f → operandFault w 1 s f ∧ exec (.jt m1 m2 sp) s = .next (s.takeFault f)) ∧
    (∀ c f, readOperand w m1 1 s = .ok c → readOperand w m2 2 s = .error f →
      operandFault w 2 s f ∧ exec (.jt m1 m2 sp) s = .next (s.takeFault f))) ∧
  [5, 105, 1005, 1105].map decode = [.ok (.jt .position .position 0), .ok (.jt .immediate .position 0),
    .ok (.jt .position .immediate 0), .ok (.jt .immediate .immediate 0)] ∧
  (∀ s : State, s.tape = [1105, 0, 100] → s.pc = 0 → s.status = .running → step s = .next { s with pc := 3 })

/-- R91: JF goes to exactly operand 2 when operand 1 is zero, and advances by exactly 3 otherwise. -/
def Obligations.JfJumpsWhenZero : Prop :=
  (∀ (m1 m2 : Mode) (sp : Nat) (s : State) (w : Int), w = encode (.jf m1 m2 sp) →
    w % 100 = 6 ∧
    (∀ c t, readOperand w m1 1 s = .ok c → readOperand w m2 2 s = .ok t →
      (c = 0 → exec (.jf m1 m2 sp) s = .next { s with pc := t }) ∧
      (c ≠ 0 → exec (.jf m1 m2 sp) s = .next { s with pc := s.pc + 3 })) ∧
    (∀ f, readOperand w m1 1 s = .error f → operandFault w 1 s f ∧ exec (.jf m1 m2 sp) s = .next (s.takeFault f)) ∧
    (∀ c f, readOperand w m1 1 s = .ok c → readOperand w m2 2 s = .error f →
      operandFault w 2 s f ∧ exec (.jf m1 m2 sp) s = .next (s.takeFault f))) ∧
  [6, 106, 1006, 1106].map decode = [.ok (.jf .position .position 0), .ok (.jf .immediate .position 0),
    .ok (.jf .position .immediate 0), .ok (.jf .immediate .immediate 0)] ∧
  (∀ s : State, s.tape = [1106, 0, 4, 0, 99] → s.pc = 0 → s.status = .running → step s = .next { s with pc := 4 })

/-- R95: LT writes 1 if operand 1 is less than operand 2 as signed integers, else 0. No overflow fault is possible. -/
def Obligations.LtWritesOneOrZero : Prop :=
  (∀ (m1 m2 : Mode) (sp : Nat) (s : State) (w : Int), w = encode (.lt m1 m2 sp) →
    w % 100 = 7 ∧
    (∀ a b d, readOperand w m1 1 s = .ok a → readOperand w m2 2 s = .ok b → writeTarget 3 s = .ok d →
      (a < b → exec (.lt m1 m2 sp) s = .next { s with tape := setCell s.tape d 1, pc := s.pc + 4 }) ∧
      (¬ a < b → exec (.lt m1 m2 sp) s = .next { s with tape := setCell s.tape d 0, pc := s.pc + 4 })) ∧
    (∀ f, readOperand w m1 1 s = .error f → operandFault w 1 s f ∧ exec (.lt m1 m2 sp) s = .next (s.takeFault f)) ∧
    (∀ a f, readOperand w m1 1 s = .ok a → readOperand w m2 2 s = .error f →
      operandFault w 2 s f ∧ exec (.lt m1 m2 sp) s = .next (s.takeFault f)) ∧
    (∀ a b f, readOperand w m1 1 s = .ok a → readOperand w m2 2 s = .ok b → writeTarget 3 s = .error f →
      targetFault 3 s f ∧ exec (.lt m1 m2 sp) s = .next (s.takeFault f))) ∧
  [7, 107, 1007, 1107].map decode = [.ok (.lt .position .position 0), .ok (.lt .immediate .position 0),
    .ok (.lt .position .immediate 0), .ok (.lt .immediate .immediate 0)] ∧
  (∀ s : State, s.tape = [1107, 3, 8, 5, 99, -1] → s.pc = 0 → s.status = .running →
    step s = .next { s with tape := [1107, 3, 8, 5, 99, 1], pc := 4 })

/-- R96: EQ writes 1 if the operands are the same integer, else 0. -/
def Obligations.EqWritesOneOrZero : Prop :=
  (∀ (m1 m2 : Mode) (sp : Nat) (s : State) (w : Int), w = encode (.eq m1 m2 sp) →
    w % 100 = 8 ∧
    (∀ a b d, readOperand w m1 1 s = .ok a → readOperand w m2 2 s = .ok b → writeTarget 3 s = .ok d →
      (a = b → exec (.eq m1 m2 sp) s = .next { s with tape := setCell s.tape d 1, pc := s.pc + 4 }) ∧
      (a ≠ b → exec (.eq m1 m2 sp) s = .next { s with tape := setCell s.tape d 0, pc := s.pc + 4 })) ∧
    (∀ f, readOperand w m1 1 s = .error f → operandFault w 1 s f ∧ exec (.eq m1 m2 sp) s = .next (s.takeFault f)) ∧
    (∀ a f, readOperand w m1 1 s = .ok a → readOperand w m2 2 s = .error f →
      operandFault w 2 s f ∧ exec (.eq m1 m2 sp) s = .next (s.takeFault f)) ∧
    (∀ a b f, readOperand w m1 1 s = .ok a → readOperand w m2 2 s = .ok b → writeTarget 3 s = .error f →
      targetFault 3 s f ∧ exec (.eq m1 m2 sp) s = .next (s.takeFault f))) ∧
  [8, 108, 1008, 1108].map decode = [.ok (.eq .position .position 0), .ok (.eq .immediate .position 0),
    .ok (.eq .position .immediate 0), .ok (.eq .immediate .immediate 0)] ∧
  (∀ s : State, s.tape = [8, 5, 6, 7, 99, 8, 8, -1] → s.pc = 0 → s.status = .running →
    step s = .next { s with tape := [8, 5, 6, 7, 99, 8, 8, 1], pc := 4 })

/-- R100: HALT sets `STATUS` to `HALTED` and changes nothing else, `pc` included; it has no fault of its own. -/
def Obligations.HaltChangesOnlyStatus : Prop :=
  (∀ (sp : Nat) (s : State), (encode (.halt sp)) % 100 = 99 ∧ exec (.halt sp) s = .next { s with status := .halted }) ∧
  decode 99 = .ok (.halt 0) ∧ decode 199 = .ok (.halt 1) ∧ decode 10099 = .ok (.halt 100) ∧
  (∀ s : State, s.tape = [2, 0, 0, 0, 99] → s.pc = 4 → s.status = .running →
    step s = .next { s with status := .halted } ∧ State.result { s with status := .halted } = some 2)

/-- R93 (the spec's decision D10): a jump whose target operand is absent or has an illegal mode digit faults whether or not it would be taken; with
the rule's example tape. -/
def Obligations.JumpNeedsItsTargetOperand : Prop :=
  (∀ (m1 m2 : Mode) (sp : Nat) (s : State) (c : Int) (f : FaultRecord),
    (readOperand (encode (.jt m1 m2 sp)) m1 1 s = .ok c → readOperand (encode (.jt m1 m2 sp)) m2 2 s = .error f →
      operandFault (encode (.jt m1 m2 sp)) 2 s f ∧ exec (.jt m1 m2 sp) s = .next (s.takeFault f)) ∧
    (readOperand (encode (.jf m1 m2 sp)) m1 1 s = .ok c → readOperand (encode (.jf m1 m2 sp)) m2 2 s = .error f →
      operandFault (encode (.jf m1 m2 sp)) 2 s f ∧ exec (.jf m1 m2 sp) s = .next (s.takeFault f))) ∧
  (∀ s : State, s.tape = [105, 0, 100, 99] → s.pc = 0 → s.status = .running →
    s.cfg.posTargetFault = .malformedOperand → step s = .next (s.takeFault (.malformedOperand 0 2)))

/-- R92: a taken jump completes with any integer as its target, and where the target is outside the tape the NEXT step's
fetch faults with it. -/
def Obligations.JumpTargetIsCheckedByTheNextFetch : Prop :=
  ∀ (m1 m2 : Mode) (sp : Nat) (s : State) (c t : Int),
    (readOperand (encode (.jt m1 m2 sp)) m1 1 s = .ok c → readOperand (encode (.jt m1 m2 sp)) m2 2 s = .ok t → c ≠ 0 →
      ∃ u, exec (.jt m1 m2 sp) s = .next u ∧ u.pc = t ∧
        (s.status = .running → ¬ InBounds s.tape t → step u = .next (u.takeFault (.outOfBounds t)))) ∧
    (readOperand (encode (.jf m1 m2 sp)) m1 1 s = .ok c → readOperand (encode (.jf m1 m2 sp)) m2 2 s = .ok t → c = 0 →
      ∃ u, exec (.jf m1 m2 sp) s = .next u ∧ u.pc = t ∧
        (s.status = .running → ¬ InBounds s.tape t → step u = .next (u.takeFault (.outOfBounds t))))

/-- R86: while the port has no integer at the cursor, an IN with a target in order changes nothing (a step that changes
nothing is the model's form of the hold, log 1); an integer the host supplies lifts the hold, and IN then stores it. -/
def Obligations.InWaitsUntilTheHostSupplies : Prop :=
  ∀ (sp : Nat) (s : State) (d : Int), writeTarget 1 s = .ok d → s.input[s.inPos]? = none →
    exec (.inp sp) s = .next s ∧
    (s.status = .running → fetchInstr s = .ok (.inp sp) → s.held = true ∧ step s = .next s) ∧
    ∀ (v : Int) (t : State), s.inPos = s.input.length → s.supply v = some t →
      exec (.inp sp) t = .next { t with tape := setCell t.tape d v, inPos := t.inPos + 1, pc := t.pc + 2 }

/-- Frame of ADD, MUL, LT, EQ (write operand 3) and IN (write operand 1): every cell but the write target reads as before,
the length, the log, the supplied input and the parameters stay, the cursor moves only in IN, and `STATUS` and `FAULT`
change only by taking a fault, which changes nothing else (R11, R36, R129). -/
def Obligations.StoringInstructionsFrame : Prop :=
  ∀ (i : Instr) (k : Nat) (s t : State), storeOperand i = some k → exec i s = .next t →
    t.tape.length = s.tape.length ∧
    (∀ a : Int, (∀ d, writeTarget k s = .ok d → a ≠ d) → cellAt t.tape a = cellAt s.tape a) ∧
    t.out = s.out ∧ t.input = s.input ∧ t.cfg = s.cfg ∧
    ((∀ sp, i ≠ .inp sp) → t.inPos = s.inPos) ∧
    ((t.status = s.status ∧ t.fault = s.fault) ∨ ∃ f, t = s.takeFault f)

/-- Frame of OUT, JT, JF and HALT, which store nothing: every cell reads as before; the log changes only in OUT, by
appending; `STATUS` changes only in HALT or by taking a fault, `FAULT` only by taking a fault (R87, R90, R91, R100). -/
def Obligations.NonStoringInstructionsFrame : Prop :=
  ∀ (i : Instr) (s t : State), storeOperand i = none → exec i s = .next t →
    t.tape = s.tape ∧ (∀ a : Int, cellAt t.tape a = cellAt s.tape a) ∧
    t.inPos = s.inPos ∧ t.input = s.input ∧ t.cfg = s.cfg ∧
    ((∀ m sp, i ≠ .out m sp) → t.out = s.out) ∧
    ((∃ sp, i = .halt sp) → t.pc = s.pc ∧ t.fault = s.fault) ∧
    ((t.status = s.status ∧ t.fault = s.fault) ∨ (∃ sp, i = .halt sp) ∨ ∃ f, t = s.takeFault f)

/-- Every instruction, in every state and with every operand, answers a next state: nothing is refused and nothing stops
the model (a fault of the spec is a next state, R129). Two parts of "every state" are the model's own choice: that an IN
which holds answers a next state, where R86 says that the step is not enabled (log 1), and that `exec` answers in HALTED
and FAULTED too, since only `step` looks at `STATUS` (log 12). -/
def Obligations.EveryInstructionAnswersANextState : Prop :=
  ∀ (i : Instr) (s : State), ∃ t, exec i s = .next t ∧ (t.status = .faulted → s.status = .faulted ∨ ∃ f, t = s.takeFault f)

/-! ### The step -/

/-- R105: with `STATUS = RUNNING`, when the word at `pc` decodes, the step is the instruction's execution at this state. -/
def Obligations.StepRunsTheDecodedInstruction : Prop :=
  ∀ (s : State) (w : Int) (i : Instr), s.status = .running → cellAt s.tape s.pc = some w → decode w = .ok i →
    step s = exec i s

/-- R103: a step whose `pc` is outside the tape faults with `OutOfBounds(pc)`, and on a tape of no cells every `pc` is. -/
def Obligations.FetchOutsideTheTapeFaults : Prop :=
  ∀ s : State, s.status = .running → (¬ InBounds s.tape s.pc ∨ s.tape = []) →
    step s = .next { s with status := .faulted, fault := some (.outOfBounds s.pc) }

/-- R106 (the spec's decision D16): in `HALTED` and in `FAULTED` no step exists; which stop the model answers is its own
choice (log 2). In `RUNNING` the model's `step` answers a next state; where the machine is held at an IN (R86: the step is
not enabled) that is the model's form of the hold, its own choice (log 1). -/
def Obligations.NoStepInATerminalState : Prop :=
  ∀ s : State, (s.status = .halted → step s = .fault .noStepAfterHalt) ∧
    (s.status = .faulted → step s = .fault .noStepAfterFault) ∧
    (s.status = .running → ∃ t, step s = .next t)

/-- R129 (the spec's decision D9): a step that ends in `FAULTED` has changed nothing but `STATUS` and `FAULT`. -/
def Obligations.FaultEntryIsPrecise : Prop :=
  ∀ s t : State, step s = .next t → t.status = .faulted →
    ∃ f, t = { s with status := .faulted, fault := some f } ∧ t.tape = s.tape ∧ t.pc = s.pc ∧
      t.inPos = s.inPos ∧ t.out = s.out

/-- R133: which instruction can raise which fault: a step that faults did so in the fetch, in the dispatch, or in the
chosen instruction with a kind that its row of the table allows. -/
def Obligations.FaultsFollowTheCrossTable : Prop :=
  ∀ s t : State, step s = .next t → t.status = .faulted →
    ∃ f, t.fault = some f ∧
      ((¬ InBounds s.tape s.pc ∧ f = .outOfBounds s.pc) ∨
       (∃ w e, cellAt s.tape s.pc = some w ∧ decode w = .error e ∧ f = .unknownOpcode s.pc w) ∨
       (∃ w i, cellAt s.tape s.pc = some w ∧ decode w = .ok i ∧ faultAllowed i s f))

/-- R124, R126: no step raises `ConfigurationFault`, and with an unbounded `W` none raises `ArithmeticOverflow`. -/
def Obligations.UnreachableFaultKinds : Prop :=
  ∀ s t : State, s.fault = none → step s = .next t →
    t.fault ≠ some .configurationFault ∧
    (s.cfg.width = .unbounded → ∀ p, t.fault ≠ some (.arithmeticOverflow p))

/-- R14: how each instruction leaves `pc`. An IN that holds (R86) leaves the whole state, the model's form of the hold
(log 1). -/
def Obligations.PointerAfterEachInstruction : Prop :=
  ∀ (s t : State) (w : Nat), cellAt s.tape s.pc = some (w : Int) → step s = .next t →
    (t.status = .faulted → t.pc = s.pc) ∧
    (t.status ≠ .faulted →
      (w % 100 ∈ [1, 2, 7, 8] → t.pc = s.pc + 4) ∧
      (w % 100 = 3 → t.pc = s.pc + 2 ∨ (s.held = true ∧ t = s)) ∧
      (w % 100 = 4 → t.pc = s.pc + 2) ∧
      (w % 100 = 5 → ∃ c a, readOperand w (modeAt 1 w) 1 s = .ok c ∧ readOperand w (modeAt 2 w) 2 s = .ok a ∧
        t.pc = if c ≠ 0 then a else s.pc + 3) ∧
      (w % 100 = 6 → ∃ c a, readOperand w (modeAt 1 w) 1 s = .ok c ∧ readOperand w (modeAt 2 w) 2 s = .ok a ∧
        t.pc = if c = 0 then a else s.pc + 3) ∧
      (w % 100 = 99 → t.pc = s.pc))

/-- R16, R101: a step ends in `HALTED` exactly when the word it fetched has opcode 99, and the machine is then told not to
continue. -/
def Obligations.HaltedExactlyByHalt : Prop :=
  ∀ s t : State, step s = .next t →
    (t.status = .halted ↔ ∃ w, cellAt s.tape s.pc = some w ∧ 0 ≤ w ∧ w % 100 = 99) ∧
    (t.shouldProgramContinue = false ↔ t.status = .halted ∨ t.status = .faulted) ∧ s.shouldProgramContinue = true

/-- R11: a step changes at most one cell, the one that the write operand names, and only when the word it fetched is an
ADD, MUL, LT or EQ (write operand 3) or an IN (write operand 1). -/
def Obligations.AtMostOneCellPerStep : Prop :=
  ∀ s t : State, step s = .next t → t.tape = s.tape ∨
    ∃ (w : Nat) (d v : Int), cellAt s.tape s.pc = some (w : Int) ∧ w % 100 ∈ [1, 2, 3, 7, 8] ∧
      (w % 100 ∈ [1, 2, 7, 8] → writeTarget 3 s = .ok d) ∧ (w % 100 = 3 → writeTarget 1 s = .ok d) ∧ InBounds s.tape d ∧
      t.tape = setCell s.tape d v ∧ cellAt t.tape d = some v ∧ ∀ a, a ≠ d → cellAt t.tape a = cellAt s.tape a

/-- R20: a step leaves the output log or appends one value to it, the latter only when the word fetched is an OUT, with its
operand's value. -/
def Obligations.OnlyOutAppendsToTheLog : Prop :=
  ∀ s t : State, step s = .next t → t.out = s.out ∨
    ∃ (w : Nat) (v : Int), cellAt s.tape s.pc = some (w : Int) ∧ w % 100 = 4 ∧
      readOperand w (modeAt 1 w) 1 s = .ok v ∧ t.out = s.out ++ [v]

/-- R19: a step leaves the input cursor or advances it by one, the latter only when the word fetched is an IN, whose target
then holds the integer that stood at the cursor. -/
def Obligations.OnlyInConsumesInput : Prop :=
  ∀ s t : State, step s = .next t → t.inPos = s.inPos ∨
    ∃ (w : Nat) (d v : Int), cellAt s.tape s.pc = some (w : Int) ∧ w % 100 = 3 ∧ t.inPos = s.inPos + 1 ∧
      s.input[s.inPos]? = some v ∧ writeTarget 1 s = .ok d ∧ cellAt t.tape d = some v

/-- R40: the word an ADD or an IN writes where the next instruction begins is the word the next step fetches. -/
def Obligations.NextFetchSeesTheWrite : Prop :=
  (∀ (m1 m2 : Mode) (sp : Nat) (s : State) (a b : Int), readOperand (encode (.add m1 m2 sp)) m1 1 s = .ok a →
    readOperand (encode (.add m1 m2 sp)) m2 2 s = .ok b → writeTarget 3 s = .ok (s.pc + 4) →
    widthFits s.cfg.width (a + b) = true →
    ∃ t, exec (.add m1 m2 sp) s = .next t ∧ fetchWord t = .ok (a + b)) ∧
  (∀ (sp : Nat) (s : State) (v : Int), writeTarget 1 s = .ok (s.pc + 2) → inputOffer s = some v →
    ∃ t, exec (.inp sp) s = .next t ∧ fetchWord t = .ok v)

/-- R106, R19: the outcome of a step depends on the supplied input only through the integer at the cursor. -/
def Obligations.StepReadsOnlyTheNextInput : Prop :=
  ∀ (s t : State) (input' : List Int), input'[s.inPos]? = s.input[s.inPos]? → step s = .next t →
    step { s with input := input' } = .next { t with input := input' }

/-- R20: no instruction reads the output log: whatever it held before, the step does the same and appends the same. -/
def Obligations.NoInstructionReadsTheLog : Prop :=
  ∀ s t : State, step s = .next t → ∃ emitted, t.out = s.out ++ emitted ∧
    ∀ out', step { s with out := out' } = .next { t with out := out' ++ emitted }

/-- R71, D6: `POS_TARGET_FAULT` decides the name of a fault and nothing else. -/
def Obligations.PosTargetFaultOnlyNamesTheFault : Prop :=
  ∀ (i : Instr) (s t : State) (p q : PosTargetFault),
    exec i { s with cfg := { s.cfg with posTargetFault := p } } = .next t →
    ∃ u, exec i { s with cfg := { s.cfg with posTargetFault := q } } = .next u ∧
      { u with fault := none, cfg := t.cfg } = { t with fault := none }

/-- R84, D2: where an instruction of a finite-width machine raises no overflow, and the port has let in only integers of
that width, the unbounded machine does exactly the same: a finite width never wraps. -/
def Obligations.FiniteWidthAgreesUntilOverflow : Prop :=
  ∀ (i : Instr) (s t : State) (n : Nat), s.input.all (widthFits (.bits n)) = true →
    exec i { s with cfg := { s.cfg with width := .bits n } } = .next t →
    (∀ p, t.fault ≠ some (.arithmeticOverflow p)) →
    exec i { s with cfg := { s.cfg with width := .unbounded } } = .next { t with cfg := { t.cfg with width := .unbounded } }

/-! ### Reset, invariants, runs -/

/-- R25, R150 (the spec's decisions D12 and D19): reset sets every item of state from the image, the start pointer (0 when none is given) and the input; a
finite `W` refuses values that do not fit (R84, log 6); a bad start shows as a fault of the first fetch, not of reset. -/
def Obligations.LoadSetsEveryItem : Prop :=
  ∀ (cfg : Config) (image : List Int) (ip : Int) (input : List Int),
    ((∀ v ∈ image ++ input, widthFits cfg.width v = true) →
      load cfg image ip input = some ⟨image, ip, .running, none, 0, [], input, cfg⟩) ∧
    ((∃ v ∈ image ++ input, widthFits cfg.width v = false) → load cfg image ip input = none) ∧
    (cfg.width = .unbounded → ∃ s, load cfg image = some s ∧ s.pc = 0) ∧
    (∀ s, load cfg image ip input = some s → ¬ InBounds image ip →
      step s = .next { s with status := .faulted, fault := some (.outOfBounds ip) })

/-- The invariant holds at the model's reset state, whose image and input are empty (log 4). -/
def Obligations.ResetSatisfiesTheInvariant : Prop := State.reset.Inv

/-- The invariant holds of every loaded state of a machine that can exist, and the host's supplying input keeps it. -/
def Obligations.HostPortsKeepTheInvariant : Prop :=
  (∀ (cfg : Config) (image : List Int) (ip : Int) (input : List Int) (s : State), cfg.wf = true →
    load cfg image ip input = some s → s.Inv) ∧
  ∀ (s t : State) (v : Int), s.Inv → s.supply v = some t → t.Inv

/-- Headline: every step keeps the invariant, from every state that has it: the cells and the emitted values stay in the
range of the width, the cursor stays within the supplied input, `FAULT` is filled exactly in `FAULTED`, and a halted
`pc` points at a HALT inside the tape. -/
def Obligations.StepKeepsTheInvariant : Prop :=
  ∀ s t : State, s.Inv → step s = .next t → t.Inv

/-- Every state that any run of any machine reaches, from any image, start pointer and input, with any input
supplied on the way, has the invariant. -/
def Obligations.EveryRunSatisfiesTheInvariant : Prop :=
  ∀ (cfg : Config) (image : List Int) (ip : Int) (input : List Int) (s t : State), cfg.wf = true →
    load cfg image ip input = some s → Reaches s t → t.Inv

/-- R10, R3, R24: along every run the tape keeps its length and the parameters stay, and the host's input is only
extended. -/
def Obligations.LengthAndParametersNeverChange : Prop :=
  ∀ s t : State, Reaches s t → t.tape.length = s.tape.length ∧ t.cfg = s.cfg ∧ s.input <+: t.input

/-- R20, R38: along every run the output log only grows at its end and the cursor never goes back. -/
def Obligations.OutputLogOnlyGrows : Prop :=
  ∀ s t : State, Reaches s t → s.out <+: t.out ∧ s.inPos ≤ t.inPos

/-- R16, R101, R132 (the spec's decision D16): `HALTED` and `FAULTED` are absorbing: whatever follows, all of the machine's state stays, and only the
host's input may be extended. -/
def Obligations.TerminalStatesAreAbsorbing : Prop :=
  ∀ s t : State, s.status ≠ .running → Reaches s t → t = { s with input := t.input }

/-- R22: the result is `x[0]`, it exists in every halted state that has the invariant, and there is none otherwise. -/
def Obligations.ResultExistsOnceHalted : Prop :=
  ∀ s : State, (s.Inv → s.status = .halted → 1 ≤ s.tape.length ∧ ∃ v, cellAt s.tape 0 = some v ∧ s.result = some v) ∧
    (s.status ≠ .halted → s.result = none)

/-- R107: a run that has ended has ended for good, whatever the fuel beyond, in a state that its steps reach; a halted run's
result is `x[0]`, a faulted run gives the record and no result. -/
def Obligations.EndedRunsStayEnded : Prop :=
  ∀ (n : Nat) (s t : State),
    (∀ r, runFor n s = .halted r t → t.status = .halted ∧ r = cellAt t.tape 0 ∧ Reaches s t ∧
      ∀ m, n ≤ m → runFor m s = .halted r t) ∧
    (∀ f, runFor n s = .faulted f t → t.status = .faulted ∧ f = t.fault ∧ t.result = none ∧ Reaches s t ∧
      ∀ m, n ≤ m → runFor m s = .faulted f t) ∧
    (runFor n s = .unfinished t → t.status = .running ∧ Reaches s t)

/-! ### The diagnostic walk and the assembly notation -/

/-- R115 (the spec's decision D20 for the tail): the walk cuts one instruction after another from the tape, clipped at the tail, and reports the raw rest at a
word that spells no instruction; with the rule's example. -/
def Obligations.WalkCutsInstructionByInstruction : Prop :=
  walk [] = [] ∧
  (∀ (w : Int) (rest : List Int) (e : DecodeError), decode w = .error e → walk (w :: rest) = [.raw (w :: rest)]) ∧
  (∀ (w : Int) (rest : List Int) (i : Instr), decode w = .ok i →
    walk (w :: rest) = .instruction ((w :: rest).take i.length) :: walk ((w :: rest).drop i.length)) ∧
  walk [1, 9, 10, 3, 2, 3, 11, 0, 99, 30, 40, 50] =
    [.instruction [1, 9, 10, 3], .instruction [2, 3, 11, 0], .instruction [99], .raw [30, 40, 50]]

/-- The chunks of the walk, put together, are the whole tape: no cell is lost, repeated or moved. -/
def Obligations.WalkShowsTheWholeTape : Prop :=
  ∀ x : Tape, (walk x).flatMap Chunk.cells = x

/-- R63, R64 (the spec's decision D14): a statement other than `DATA` assembles to exactly one machine instruction of its length, whose word decodes
to it with the modes the operands were written with; `DATA` is exactly one cell; and the rule's example. -/
def Obligations.StatementsAssembleToOneInstruction : Prop :=
  (∀ (st : Stmt) (i : Instr), st.instr = some i → st.assemble.length = i.length ∧
    ∃ w, st.assemble = w :: st.operandCells ∧ decode w = .ok i) ∧
  (∀ n : Int, (Stmt.data n).assemble = [n] ∧ (Stmt.data n).instr = none) ∧
  Stmt.assemble (.mul (.pos 4) (.imm 3) 4) = [1002, 4, 3, 4]

/-- R120, R127 (the spec's decision D13): the six fault kinds have the codes 1 to 6. -/
def Obligations.FaultCodesOneToSix : Prop :=
  ∀ (a pc w : Int) (k : Nat), (FaultRecord.outOfBounds a).code = 1 ∧ (FaultRecord.unknownOpcode pc w).code = 2 ∧
    (FaultRecord.malformedOperand pc k).code = 3 ∧ FaultRecord.configurationFault.code = 4 ∧
    (FaultRecord.illegalMode pc w k).code = 5 ∧ (FaultRecord.arithmeticOverflow pc).code = 6
end

