-- ==== Sys2Proof/Laws/Decode.lean ====
section
/-! SUPPORT. Digits, modes and words: what each field of a word reads back as. -/

namespace Sys2Proof

theorem digit_lt (j w : Nat) : digit j w < 10 := Nat.mod_lt _ (by decide)

@[simp] theorem Mode.digit_ofDigit (d : Nat) : (Mode.ofDigit d).digit = d := by
  match d with
  | 0 => rfl
  | 1 => rfl
  | _ + 2 => rfl

theorem Mode.ofDigit_digit {m : Mode} (h : m.wf = true) : Mode.ofDigit m.digit = m := by
  match m, h with
  | .position, _ => rfl
  | .immediate, _ => rfl
  | .illegal (d + 2), _ => rfl

theorem Mode.digit_le {m : Mode} (h : m.wf = true) : m.digit ≤ 9 := by
  match m, h with
  | .position, _ => decide
  | .immediate, _ => decide
  | .illegal d, h => simp [Mode.wf] at h; exact h.2

theorem Mode.wf_ofDigit {d : Nat} (h : d < 10) : (Mode.ofDigit d).wf = true := by
  match d, h with
  | 0, _ => rfl
  | 1, _ => rfl
  | d + 2, h => simp [Mode.ofDigit, Mode.wf]; omega

theorem Mode.wf_of_legal {m : Mode} (h : m.legal = true) : m.wf = true := by
  cases m <;> simp_all [Mode.legal, Mode.wf]

@[simp] theorem wf_modeAt (k w : Nat) : (modeAt k w).wf = true := Mode.wf_ofDigit (digit_lt _ _)

@[simp] theorem digit_modeAt (k w : Nat) : (modeAt k w).digit = w / 10 ^ (k + 1) % 10 :=
  Mode.digit_ofDigit _

/-- The hundreds digit of a word built from its fields is the digit of mode 1. -/
theorem modeAt_one_wordAB {op sp : Nat} {m1 m2 : Mode} (hop : op < 100) (h1 : m1.wf = true) :
    modeAt 1 (wordAB op m1 m2 sp) = m1 := by
  have := Mode.digit_le h1
  have hd : digit 2 (wordAB op m1 m2 sp) = m1.digit := by
    simp only [digit, wordAB]; norm_num; omega
  rw [modeAt, hd, Mode.ofDigit_digit h1]

/-- The thousands digit of a word built from its fields is the digit of mode 2. -/
theorem modeAt_two_wordAB {op sp : Nat} {m1 m2 : Mode} (hop : op < 100) (h1 : m1.wf = true) (h2 : m2.wf = true) :
    modeAt 2 (wordAB op m1 m2 sp) = m2 := by
  have := Mode.digit_le h1
  have := Mode.digit_le h2
  have hd : digit 3 (wordAB op m1 m2 sp) = m2.digit := by
    simp only [digit, wordAB]; norm_num; omega
  rw [modeAt, hd, Mode.ofDigit_digit h2]

theorem wordAB_mod {op sp : Nat} {m1 m2 : Mode} (hop : op < 100) : wordAB op m1 m2 sp % 100 = op := by
  unfold wordAB; omega

theorem wordAB_div {op sp : Nat} {m1 m2 : Mode} (hop : op < 100) (h1 : m1.wf = true) (h2 : m2.wf = true) :
    wordAB op m1 m2 sp / 10000 = sp := by
  have := Mode.digit_le h1
  have := Mode.digit_le h2
  unfold wordAB; omega

/-- A number is the word built from its own fields. -/
theorem wordAB_fields (n : Nat) : wordAB (n % 100) (modeAt 1 n) (modeAt 2 n) (n / 10000) = n := by
  simp only [wordAB, digit_modeAt]; norm_num; omega

/-- What dispatch says of a non-negative number: which instruction, or that the opcode is in no row. -/
theorem decodeNat_cases (n : Nat) :
    (n % 100 = 1 ∧ decodeNat n = .ok (.add (modeAt 1 n) (modeAt 2 n) (n / 10000))) ∨
    (n % 100 = 2 ∧ decodeNat n = .ok (.mul (modeAt 1 n) (modeAt 2 n) (n / 10000))) ∨
    (n % 100 = 3 ∧ decodeNat n = .ok (.inp (n / 100))) ∨
    (n % 100 = 4 ∧ decodeNat n = .ok (.out (modeAt 1 n) (n / 1000))) ∨
    (n % 100 = 5 ∧ decodeNat n = .ok (.jt (modeAt 1 n) (modeAt 2 n) (n / 10000))) ∨
    (n % 100 = 6 ∧ decodeNat n = .ok (.jf (modeAt 1 n) (modeAt 2 n) (n / 10000))) ∨
    (n % 100 = 7 ∧ decodeNat n = .ok (.lt (modeAt 1 n) (modeAt 2 n) (n / 10000))) ∨
    (n % 100 = 8 ∧ decodeNat n = .ok (.eq (modeAt 1 n) (modeAt 2 n) (n / 10000))) ∨
    (n % 100 = 99 ∧ decodeNat n = .ok (.halt (n / 100))) ∨
    (n % 100 ∉ [1, 2, 3, 4, 5, 6, 7, 8, 99] ∧ decodeNat n = .error (.unregisteredOpcode (n % 100))) := by
  unfold decodeNat
  split <;> simp_all

theorem decode_ofNat (n : Nat) : decode (n : Int) = decodeNat n := by
  have h : ¬ ((n : Int) < 0) := by omega
  simp [decode, h]

theorem decode_neg {w : Int} (h : w < 0) : decode w = .error .negativeWord := by simp [decode, h]

/-- A word that spells an instruction is a natural number. -/
theorem decode_ok_nat {w : Int} {i : Instr} (h : decode w = .ok i) : ∃ n : Nat, w = n ∧ decodeNat n = .ok i := by
  unfold decode at h
  split at h
  · cases h
  · exact ⟨w.toNat, by omega, h⟩

/-- What a number decodes to has the number's own low two digits as its opcode. -/
theorem decode_opcode {n : Nat} {i : Instr} (h : decode (n : Int) = .ok i) : n % 100 = i.opcode := by
  rw [decode_ofNat] at h
  obtain ⟨hm, hd⟩ | ⟨hm, hd⟩ | ⟨hm, hd⟩ | ⟨hm, hd⟩ | ⟨hm, hd⟩ | ⟨hm, hd⟩ | ⟨hm, hd⟩ | ⟨hm, hd⟩ | ⟨hm, hd⟩ | ⟨hm, hd⟩ :=
    decodeNat_cases n
  all_goals rw [hd] at h; cases h
  all_goals exact hm

/-- The modes of the read operands of an instruction, in operand order. -/
def Instr.modes : Instr → List Mode
  | .add m1 m2 _ | .mul m1 m2 _ | .jt m1 m2 _ | .jf m1 m2 _ | .lt m1 m2 _ | .eq m1 m2 _ => [m1, m2]
  | .out m1 _ => [m1]
  | .inp _ | .halt _ => []

/-- What a number decodes to has the number's own mode digits as its modes. -/
theorem decode_modes {n : Nat} {i : Instr} (h : decode (n : Int) = .ok i) :
    i.modes <+: [modeAt 1 n, modeAt 2 n] := by
  rw [decode_ofNat] at h
  obtain ⟨hm, hd⟩ | ⟨hm, hd⟩ | ⟨hm, hd⟩ | ⟨hm, hd⟩ | ⟨hm, hd⟩ | ⟨hm, hd⟩ | ⟨hm, hd⟩ | ⟨hm, hd⟩ | ⟨hm, hd⟩ | ⟨hm, hd⟩ :=
    decodeNat_cases n
  all_goals rw [hd] at h; cases h
  all_goals simp [Instr.modes]

end Sys2Proof
end

