-- ==== Sys2Proof/Laws/State.lean ====
section
/-! SUPPORT. One lemma per field per update of State: what each update leaves in each field. -/

namespace Sys2Proof.Machine

section
variable (s : State)

@[simp] theorem State.writeCell_tape (d v : Int) : (s.writeCell d v).tape = setCell s.tape d v := rfl
@[simp] theorem State.writeCell_pc (d v : Int) : (s.writeCell d v).pc = s.pc := rfl
@[simp] theorem State.writeCell_status (d v : Int) : (s.writeCell d v).status = s.status := rfl
@[simp] theorem State.writeCell_fault (d v : Int) : (s.writeCell d v).fault = s.fault := rfl
@[simp] theorem State.writeCell_inPos (d v : Int) : (s.writeCell d v).inPos = s.inPos := rfl
@[simp] theorem State.writeCell_out (d v : Int) : (s.writeCell d v).out = s.out := rfl
@[simp] theorem State.writeCell_input (d v : Int) : (s.writeCell d v).input = s.input := rfl
@[simp] theorem State.writeCell_cfg (d v : Int) : (s.writeCell d v).cfg = s.cfg := rfl

@[simp] theorem State.setPc_tape (t : Int) : (s.setPc t).tape = s.tape := rfl
@[simp] theorem State.setPc_pc (t : Int) : (s.setPc t).pc = t := rfl
@[simp] theorem State.setPc_status (t : Int) : (s.setPc t).status = s.status := rfl
@[simp] theorem State.setPc_fault (t : Int) : (s.setPc t).fault = s.fault := rfl
@[simp] theorem State.setPc_inPos (t : Int) : (s.setPc t).inPos = s.inPos := rfl
@[simp] theorem State.setPc_out (t : Int) : (s.setPc t).out = s.out := rfl
@[simp] theorem State.setPc_input (t : Int) : (s.setPc t).input = s.input := rfl
@[simp] theorem State.setPc_cfg (t : Int) : (s.setPc t).cfg = s.cfg := rfl

@[simp] theorem State.advance_tape (n : Nat) : (s.advance n).tape = s.tape := rfl
@[simp] theorem State.advance_pc (n : Nat) : (s.advance n).pc = s.pc + n := rfl
@[simp] theorem State.advance_status (n : Nat) : (s.advance n).status = s.status := rfl
@[simp] theorem State.advance_fault (n : Nat) : (s.advance n).fault = s.fault := rfl
@[simp] theorem State.advance_inPos (n : Nat) : (s.advance n).inPos = s.inPos := rfl
@[simp] theorem State.advance_out (n : Nat) : (s.advance n).out = s.out := rfl
@[simp] theorem State.advance_input (n : Nat) : (s.advance n).input = s.input := rfl
@[simp] theorem State.advance_cfg (n : Nat) : (s.advance n).cfg = s.cfg := rfl

@[simp] theorem State.emit_tape (v : Int) : (s.emit v).tape = s.tape := rfl
@[simp] theorem State.emit_pc (v : Int) : (s.emit v).pc = s.pc := rfl
@[simp] theorem State.emit_status (v : Int) : (s.emit v).status = s.status := rfl
@[simp] theorem State.emit_fault (v : Int) : (s.emit v).fault = s.fault := rfl
@[simp] theorem State.emit_inPos (v : Int) : (s.emit v).inPos = s.inPos := rfl
@[simp] theorem State.emit_out (v : Int) : (s.emit v).out = s.out ++ [v] := rfl
@[simp] theorem State.emit_input (v : Int) : (s.emit v).input = s.input := rfl
@[simp] theorem State.emit_cfg (v : Int) : (s.emit v).cfg = s.cfg := rfl

@[simp] theorem State.consumeInput_tape : (s.consumeInput).tape = s.tape := rfl
@[simp] theorem State.consumeInput_pc : (s.consumeInput).pc = s.pc := rfl
@[simp] theorem State.consumeInput_status : (s.consumeInput).status = s.status := rfl
@[simp] theorem State.consumeInput_fault : (s.consumeInput).fault = s.fault := rfl
@[simp] theorem State.consumeInput_inPos : (s.consumeInput).inPos = s.inPos + 1 := rfl
@[simp] theorem State.consumeInput_out : (s.consumeInput).out = s.out := rfl
@[simp] theorem State.consumeInput_input : (s.consumeInput).input = s.input := rfl
@[simp] theorem State.consumeInput_cfg : (s.consumeInput).cfg = s.cfg := rfl

@[simp] theorem State.haltNow_tape : (s.haltNow).tape = s.tape := rfl
@[simp] theorem State.haltNow_pc : (s.haltNow).pc = s.pc := rfl
@[simp] theorem State.haltNow_status : (s.haltNow).status = .halted := rfl
@[simp] theorem State.haltNow_fault : (s.haltNow).fault = s.fault := rfl
@[simp] theorem State.haltNow_inPos : (s.haltNow).inPos = s.inPos := rfl
@[simp] theorem State.haltNow_out : (s.haltNow).out = s.out := rfl
@[simp] theorem State.haltNow_input : (s.haltNow).input = s.input := rfl
@[simp] theorem State.haltNow_cfg : (s.haltNow).cfg = s.cfg := rfl

@[simp] theorem State.takeFault_tape (f : FaultRecord) : (s.takeFault f).tape = s.tape := rfl
@[simp] theorem State.takeFault_pc (f : FaultRecord) : (s.takeFault f).pc = s.pc := rfl
@[simp] theorem State.takeFault_status (f : FaultRecord) : (s.takeFault f).status = .faulted := rfl
@[simp] theorem State.takeFault_fault (f : FaultRecord) : (s.takeFault f).fault = some f := rfl
@[simp] theorem State.takeFault_inPos (f : FaultRecord) : (s.takeFault f).inPos = s.inPos := rfl
@[simp] theorem State.takeFault_out (f : FaultRecord) : (s.takeFault f).out = s.out := rfl
@[simp] theorem State.takeFault_input (f : FaultRecord) : (s.takeFault f).input = s.input := rfl
@[simp] theorem State.takeFault_cfg (f : FaultRecord) : (s.takeFault f).cfg = s.cfg := rfl

end

end Sys2Proof.Machine
end

