-- ==== Sys2Proof/Laws/Memory.lean ====
section
/-! SUPPORT. The tape: what a read of one cell gives, before and after a write, and that the range of its cells is kept. -/

namespace Sys2Proof.Machine

theorem cellAt_pos {x : Tape} {a : Int} (h : InBounds x a) : cellAt x a = x[a.toNat]? := if_pos h

theorem cellAt_neg {x : Tape} {a : Int} (h : ¬ InBounds x a) : cellAt x a = none := if_neg h

theorem setCell_pos {x : Tape} {a : Int} (v : Int) (h : InBounds x a) : setCell x a v = x.set a.toNat v := if_pos h

theorem InBounds.toNat_lt {x : Tape} {a : Int} (h : InBounds x a) : a.toNat < x.length := by
  obtain ⟨h0, h1⟩ := h
  omega

theorem cellAt_of_inBounds {x : Tape} {a : Int} (h : InBounds x a) : ∃ v, cellAt x a = some v :=
  ⟨x[a.toNat]'h.toNat_lt, by rw [cellAt_pos h, List.getElem?_eq_getElem h.toNat_lt]⟩

theorem inBounds_of_cellAt {x : Tape} {a v : Int} (h : cellAt x a = some v) : InBounds x a := by
  by_contra hb
  simp [cellAt_neg hb] at h

theorem cellAt_eq_none_iff {x : Tape} {a : Int} : cellAt x a = none ↔ ¬ InBounds x a := by
  constructor
  · intro hn hb
    obtain ⟨v, hv⟩ := cellAt_of_inBounds hb
    simp [hn] at hv
  · exact cellAt_neg

theorem cellAt_mem {x : Tape} {a v : Int} (h : cellAt x a = some v) : v ∈ x := by
  rw [cellAt_pos (inBounds_of_cellAt h)] at h
  exact List.mem_of_getElem? h

@[simp] theorem setCell_length (x : Tape) (a v : Int) : (setCell x a v).length = x.length := by
  unfold setCell; split <;> simp

theorem inBounds_setCell {x : Tape} {a v b : Int} : InBounds (setCell x a v) b ↔ InBounds x b := by
  simp [InBounds]

/-- A read of the written cell gives the value written (R38). -/
theorem cellAt_setCell_same {x : Tape} {a : Int} (v : Int) (h : InBounds x a) :
    cellAt (setCell x a v) a = some v := by
  rw [cellAt_pos (inBounds_setCell.mpr h), setCell_pos v h, List.getElem?_set_self h.toNat_lt]

/-- A write leaves every other cell alone (R35). -/
theorem cellAt_setCell_other {x : Tape} {a b : Int} (v : Int) (h : b ≠ a) :
    cellAt (setCell x a v) b = cellAt x b := by
  by_cases hb : InBounds x b
  · rw [cellAt_pos (inBounds_setCell.mpr hb), cellAt_pos hb]
    by_cases ha : InBounds x a
    · have hne : a.toNat ≠ b.toNat := by obtain ⟨_, _⟩ := ha; obtain ⟨_, _⟩ := hb; omega
      rw [setCell_pos v ha, List.getElem?_set_ne hne]
    · rw [setCell, if_neg ha]
  · rw [cellAt_neg hb, cellAt_neg (mt inBounds_setCell.mp hb)]

/-- Every tape operation keeps the range of the cells, if what it writes fits (R84). -/
theorem wf_setCell {width : Width} {x : Tape} {a v : Int} (hx : Memory.wf width x = true)
    (hv : widthFits width v = true) : Memory.wf width (setCell x a v) = true := by
  unfold setCell
  split
  · simp only [Memory.wf, List.all_eq_true] at *
    intro y hy
    rcases List.mem_or_eq_of_mem_set hy with h | rfl
    · exact hx y h
    · exact hv
  · exact hx

theorem wf_cellAt {width : Width} {x : Tape} {a v : Int} (hx : Memory.wf width x = true)
    (h : cellAt x a = some v) : widthFits width v = true :=
  List.all_eq_true.mp hx v (cellAt_mem h)

theorem wf_memWrite {a v : Int} {s t : State} (h : memWrite a v s = .ok t)
    (hs : Memory.wf s.cfg.width s.tape = true) (hv : widthFits s.cfg.width v = true) :
    Memory.wf t.cfg.width t.tape = true := by
  unfold memWrite at h
  split at h
  · cases h; exact wf_setCell hs hv
  · cases h

/-- The load port accepts only tapes whose cells are of the machine's width. -/
theorem wf_load {cfg : Config} {image : List Int} {ip : Int} {input : List Int} {s : State}
    (h : load cfg image ip input = some s) : Memory.wf s.cfg.width s.tape = true := by
  unfold load at h
  split at h
  · next hc =>
    cases h
    exact (Bool.and_eq_true_iff.mp hc).1
  · cases h

theorem wf_reset : Memory.wf State.reset.cfg.width State.reset.tape = true := rfl

end Sys2Proof.Machine
end

