-- ==== Sys2Proof/Laws/Operands.lean ====
section
/-! SUPPORT. What the operand resolver and the two operand shapes can answer: each lemma says everything once. -/

namespace Sys2Proof.Machine

/-- A legal mode is position or immediate. -/
theorem Mode_legal_cases {m : Mode} (h : m.legal = true) : m = .position ∨ m = .immediate := by
  cases m with
  | position => exact .inl rfl
  | immediate => exact .inr rfl
  | illegal d => cases h

/-- A resolved operand is the content of a cell: of the operand cell, or of the cell it points to (R72). -/
theorem readOperand_ok_cases {w : Int} {m : Mode} {k : Nat} {s : State} {v : Int} (h : readOperand w m k s = .ok v) :
    (m = .immediate ∧ cellAt s.tape (s.pc + k) = some v) ∨
    (m = .position ∧ ∃ p, cellAt s.tape (s.pc + k) = some p ∧ cellAt s.tape p = some v) := by
  unfold readOperand at h
  split at h
  · cases h
  · split at h
    · cases h
    · next hc => cases h; exact .inl ⟨rfl, hc⟩
  · split at h
    · cases h
    · next p hp =>
      split at h
      · cases h
      · next hv => cases h; exact .inr ⟨rfl, p, hp, hv⟩

theorem readOperand_ok_mem {w : Int} {m : Mode} {k : Nat} {s : State} {v : Int} (h : readOperand w m k s = .ok v) :
    ∃ a, cellAt s.tape a = some v := by
  obtain ⟨-, hc⟩ | ⟨-, p, -, hv⟩ := readOperand_ok_cases h
  · exact ⟨_, hc⟩
  · exact ⟨_, hv⟩

/-- An operand that resolves has a legal mode. -/
theorem readOperand_ok_legal {w : Int} {m : Mode} {k : Nat} {s : State} {v : Int} (h : readOperand w m k s = .ok v) :
    m.legal = true := by
  obtain ⟨rfl, -⟩ | ⟨rfl, -⟩ := readOperand_ok_cases h <;> rfl

/-- The instruction word matters to the fault of an illegal mode only. -/
theorem readOperand_word {m : Mode} (hm : m.legal = true) (w w' : Int) (k : Nat) (s : State) :
    readOperand w m k s = readOperand w' m k s := by
  obtain rfl | rfl := Mode_legal_cases hm <;> rfl

/-- What a read operand can raise (R71, R133). -/
theorem readOperand_error {w : Int} {m : Mode} {k : Nat} {s : State} {f : FaultRecord}
    (h : readOperand w m k s = .error f) : operandFault w k s f := by
  unfold readOperand at h
  split at h
  · cases h; exact .inl rfl
  · split at h
    · cases h; exact .inr (.inl rfl)
    · cases h
  · split at h
    · cases h; exact .inr (.inl rfl)
    · next p hp =>
      split at h
      · next hn =>
        cases h
        unfold posTargetFault
        split
        · exact .inr (.inl rfl)
        · next hc => exact .inr (.inr ⟨hc, p, cellAt_eq_none_iff.mp hn, rfl⟩)
      · cases h

/-- Resolving a read operand looks at the tape, `pc` and the parameters only. -/
theorem readOperand_congr {s u : State} (w : Int) (m : Mode) (k : Nat) (ht : u.tape = s.tape) (hp : u.pc = s.pc)
    (hc : u.cfg = s.cfg) : readOperand w m k u = readOperand w m k s := by
  simp [readOperand, ht, hp, posTargetFault, hc]

/-- Resolving a write target looks at the tape and `pc` only. -/
theorem writeTarget_congr {s u : State} (k : Nat) (ht : u.tape = s.tape) (hp : u.pc = s.pc) :
    writeTarget k u = writeTarget k s := by
  simp [writeTarget, ht, hp]

/-- A write target is the operand cell's content and lies in the tape (R73). -/
theorem writeTarget_ok_iff {k : Nat} {s : State} {d : Int} :
    writeTarget k s = .ok d ↔ cellAt s.tape (s.pc + k) = some d ∧ InBounds s.tape d := by
  unfold writeTarget
  constructor
  · intro h
    split at h
    · cases h
    · next e he =>
      split at h
      · next hb => cases h; exact ⟨he, hb⟩
      · cases h
  · rintro ⟨hc, hb⟩
    simp only [hc]
    rw [if_pos hb]

/-- What a write target can raise (R73, R133). -/
theorem writeTarget_error {k : Nat} {s : State} {f : FaultRecord} (h : writeTarget k s = .error f) :
    targetFault k s f := by
  unfold writeTarget at h
  split at h
  · cases h; exact .inl rfl
  · next d hd =>
    split at h
    · cases h
    · next hb => cases h; exact .inr ⟨d, hd, hb, rfl⟩

/-- The ends of an instruction of format F3: the write with the advance, or one fault, the first in the order of the
checks (R128). -/
theorem threeOperand_cases {w : Int} {m1 m2 : Mode} {result : Int → Int → Except FaultRecord Int} {s : State}
    {r : Except FaultRecord State} (h : threeOperand w m1 m2 result s = r) :
    (∃ a b d v, readOperand w m1 1 s = .ok a ∧ readOperand w m2 2 s = .ok b ∧ writeTarget 3 s = .ok d ∧
      result a b = .ok v ∧ r = .ok ((s.writeCell d v).advance 4)) ∨
    (∃ f, r = .error f ∧ readOperand w m1 1 s = .error f) ∨
    (∃ a f, r = .error f ∧ readOperand w m1 1 s = .ok a ∧ readOperand w m2 2 s = .error f) ∨
    (∃ a b f, r = .error f ∧ readOperand w m1 1 s = .ok a ∧ readOperand w m2 2 s = .ok b ∧
      writeTarget 3 s = .error f) ∨
    (∃ a b d f, r = .error f ∧ readOperand w m1 1 s = .ok a ∧ readOperand w m2 2 s = .ok b ∧
      writeTarget 3 s = .ok d ∧ result a b = .error f) := by
  subst h
  unfold threeOperand
  cases h1 : readOperand w m1 1 s with
  | error f => exact .inr (.inl ⟨f, rfl, rfl⟩)
  | ok a =>
    cases h2 : readOperand w m2 2 s with
    | error f => exact .inr (.inr (.inl ⟨a, f, rfl, rfl, rfl⟩))
    | ok b =>
      cases h3 : writeTarget 3 s with
      | error f => exact .inr (.inr (.inr (.inl ⟨a, b, f, rfl, rfl, rfl, rfl⟩)))
      | ok d =>
        cases hv : result a b with
        | error f => exact .inr (.inr (.inr (.inr ⟨a, b, d, f, by simp [hv, bind, Except.bind], rfl, rfl, rfl, hv⟩)))
        | ok v => exact .inl ⟨a, b, d, v, rfl, rfl, rfl, hv, by simp [hv, bind, Except.bind, pure, Except.pure]⟩

/-- The ends of an instruction of format F2J (R93, R128). -/
theorem jumpIf_cases {w : Int} {m1 m2 : Mode} {taken : Int → Bool} {s : State} {r : Except FaultRecord State}
    (h : jumpIf w m1 m2 taken s = r) :
    (∃ c t, readOperand w m1 1 s = .ok c ∧ readOperand w m2 2 s = .ok t ∧
      r = .ok (if taken c then s.setPc t else s.advance 3)) ∨
    (∃ f, r = .error f ∧ readOperand w m1 1 s = .error f) ∨
    (∃ c f, r = .error f ∧ readOperand w m1 1 s = .ok c ∧ readOperand w m2 2 s = .error f) := by
  subst h
  unfold jumpIf
  cases h1 : readOperand w m1 1 s with
  | error f => exact .inr (.inl ⟨f, rfl, rfl⟩)
  | ok c =>
    cases h2 : readOperand w m2 2 s with
    | error f => exact .inr (.inr ⟨c, f, rfl, rfl, rfl⟩)
    | ok t => exact .inl ⟨c, t, rfl, rfl, rfl⟩

theorem threeOperand_ok {w : Int} {m1 m2 : Mode} {result : Int → Int → Except FaultRecord Int} {s : State}
    {a b d v : Int} (h1 : readOperand w m1 1 s = .ok a) (h2 : readOperand w m2 2 s = .ok b)
    (h3 : writeTarget 3 s = .ok d) (hv : result a b = .ok v) :
    threeOperand w m1 m2 result s = .ok ((s.writeCell d v).advance 4) := by
  simp [threeOperand, h1, h2, h3, hv, bind, Except.bind, pure, Except.pure]

theorem threeOperand_error_one {w : Int} {m1 m2 : Mode} {result : Int → Int → Except FaultRecord Int} {s : State}
    {f : FaultRecord} (h1 : readOperand w m1 1 s = .error f) : threeOperand w m1 m2 result s = .error f := by
  simp [threeOperand, h1, bind, Except.bind]

theorem threeOperand_error_two {w : Int} {m1 m2 : Mode} {result : Int → Int → Except FaultRecord Int} {s : State}
    {a : Int} {f : FaultRecord} (h1 : readOperand w m1 1 s = .ok a) (h2 : readOperand w m2 2 s = .error f) :
    threeOperand w m1 m2 result s = .error f := by
  simp [threeOperand, h1, h2, bind, Except.bind]

theorem threeOperand_error_target {w : Int} {m1 m2 : Mode} {result : Int → Int → Except FaultRecord Int} {s : State}
    {a b : Int} {f : FaultRecord} (h1 : readOperand w m1 1 s = .ok a) (h2 : readOperand w m2 2 s = .ok b)
    (h3 : writeTarget 3 s = .error f) : threeOperand w m1 m2 result s = .error f := by
  simp [threeOperand, h1, h2, h3, bind, Except.bind]

theorem threeOperand_error_result {w : Int} {m1 m2 : Mode} {result : Int → Int → Except FaultRecord Int} {s : State}
    {a b d : Int} {f : FaultRecord} (h1 : readOperand w m1 1 s = .ok a) (h2 : readOperand w m2 2 s = .ok b)
    (h3 : writeTarget 3 s = .ok d) (hv : result a b = .error f) : threeOperand w m1 m2 result s = .error f := by
  simp [threeOperand, h1, h2, h3, hv, bind, Except.bind]

theorem jumpIf_ok {w : Int} {m1 m2 : Mode} {taken : Int → Bool} {s : State} {c t : Int}
    (h1 : readOperand w m1 1 s = .ok c) (h2 : readOperand w m2 2 s = .ok t) :
    jumpIf w m1 m2 taken s = .ok (if taken c then s.setPc t else s.advance 3) := by
  simp [jumpIf, h1, h2, bind, Except.bind, pure, Except.pure]

theorem jumpIf_error_one {w : Int} {m1 m2 : Mode} {taken : Int → Bool} {s : State} {f : FaultRecord}
    (h1 : readOperand w m1 1 s = .error f) : jumpIf w m1 m2 taken s = .error f := by
  simp [jumpIf, h1, bind, Except.bind]

theorem jumpIf_error_two {w : Int} {m1 m2 : Mode} {taken : Int → Bool} {s : State} {c : Int} {f : FaultRecord}
    (h1 : readOperand w m1 1 s = .ok c) (h2 : readOperand w m2 2 s = .error f) :
    jumpIf w m1 m2 taken s = .error f := by
  simp [jumpIf, h1, h2, bind, Except.bind]

end Sys2Proof.Machine
end

