-- ==== Sys2Proof/Laws/PerInstr.lean ====
section
/-! SUPPORT. Facts stated of every instruction, one lemma per constructor. -/

namespace Sys2Proof.Laws.WordFields

/-- The word of an instruction is a non-negative number whose two low decimal digits are the instruction's opcode, and
that opcode is in the table with the instruction's length (R51, R55, R65). -/
def Statement (i : Instr) : Prop :=
  0 ≤ encode i ∧ i.word % 100 = i.opcode ∧ ∃ r ∈ opcodeTable, r.opcode = i.opcode ∧ r.length = i.length

theorem add (m1 m2 : Mode) (spare : Nat) : Statement (.add m1 m2 spare) :=
  ⟨Int.natCast_nonneg _, wordAB_mod (by decide), by simp [opcodeTable, Instr.opcode, Instr.length]⟩

theorem mul (m1 m2 : Mode) (spare : Nat) : Statement (.mul m1 m2 spare) :=
  ⟨Int.natCast_nonneg _, wordAB_mod (by decide), by simp [opcodeTable, Instr.opcode, Instr.length]⟩

theorem inp (spare : Nat) : Statement (.inp spare) :=
  ⟨Int.natCast_nonneg _, by simp only [Instr.word, Instr.opcode]; omega, by simp [opcodeTable, Instr.opcode, Instr.length]⟩

theorem out (m1 : Mode) (spare : Nat) : Statement (.out m1 spare) :=
  ⟨Int.natCast_nonneg _, by simp only [Instr.word, Instr.opcode]; omega, by simp [opcodeTable, Instr.opcode, Instr.length]⟩

theorem jt (m1 m2 : Mode) (spare : Nat) : Statement (.jt m1 m2 spare) :=
  ⟨Int.natCast_nonneg _, wordAB_mod (by decide), by simp [opcodeTable, Instr.opcode, Instr.length]⟩

theorem jf (m1 m2 : Mode) (spare : Nat) : Statement (.jf m1 m2 spare) :=
  ⟨Int.natCast_nonneg _, wordAB_mod (by decide), by simp [opcodeTable, Instr.opcode, Instr.length]⟩

theorem lt (m1 m2 : Mode) (spare : Nat) : Statement (.lt m1 m2 spare) :=
  ⟨Int.natCast_nonneg _, wordAB_mod (by decide), by simp [opcodeTable, Instr.opcode, Instr.length]⟩

theorem eq (m1 m2 : Mode) (spare : Nat) : Statement (.eq m1 m2 spare) :=
  ⟨Int.natCast_nonneg _, wordAB_mod (by decide), by simp [opcodeTable, Instr.opcode, Instr.length]⟩

theorem halt (spare : Nat) : Statement (.halt spare) :=
  ⟨Int.natCast_nonneg _, by simp only [Instr.word, Instr.opcode]; omega, by simp [opcodeTable, Instr.opcode, Instr.length]⟩

end Sys2Proof.Laws.WordFields
end

