-- ==== Sys2Proof/Laws/Step.lean ====
section
/-! SUPPORT. What the port, the meanings and the step can answer: one inversion lemma for each shared operation. -/

namespace Sys2Proof.Machine

@[simp] theorem settle_ok (s t : State) : settle s (.ok t) = .next t := rfl

@[simp] theorem settle_error (s : State) (f : FaultRecord) : settle s (.error f) = .next (s.takeFault f) := rfl

/-- An instruction ends in the state it computed or in the fault it raised. -/
theorem settle_cases {s t : State} {r : Except FaultRecord State} (h : settle s r = .next t) :
    r = .ok t ∨ ∃ f, r = .error f ∧ t = s.takeFault f := by
  cases r with
  | ok u => cases h; exact .inl rfl
  | error f => cases h; exact .inr ⟨f, rfl, rfl⟩

/-- `settle` always answers a next state. -/
theorem settle_next (s : State) (r : Except FaultRecord State) : ∃ t, settle s r = .next t := by
  cases r with
  | ok t => exact ⟨t, rfl⟩
  | error f => exact ⟨s.takeFault f, rfl⟩

/-- What the port offers stands at the cursor and fits the width (R19, R85). -/
theorem inputOffer_some {s : State} {v : Int} :
    inputOffer s = some v ↔ s.input[s.inPos]? = some v ∧ widthFits s.cfg.width v = true := by
  unfold inputOffer
  constructor
  · intro h
    split at h
    · next u hu =>
      split at h
      · next hf => cases h; exact ⟨hu, hf⟩
      · cases h
    · cases h
  · rintro ⟨hu, hf⟩
    simp only [hu]
    rw [if_pos hf]

/-- The ends of IN: it stores what the port offers, it holds, or its target faults. -/
theorem exec_inp_cases {spare : Nat} {s t : State} (h : exec (.inp spare) s = .next t) :
    (∃ d v, writeTarget 1 s = .ok d ∧ inputOffer s = some v ∧ t = ((s.writeCell d v).consumeInput).advance 2) ∨
    (∃ d, writeTarget 1 s = .ok d ∧ inputOffer s = none ∧ t = s) ∨
    (∃ f, writeTarget 1 s = .error f ∧ t = s.takeFault f) := by
  simp only [exec] at h
  unfold execInp at h
  cases h1 : writeTarget 1 s with
  | error f =>
    simp [h1, bind, Except.bind] at h
    exact .inr (.inr ⟨f, rfl, h.symm⟩)
  | ok d =>
    cases hv : inputOffer s with
    | none =>
      simp [h1, hv, bind, Except.bind, pure, Except.pure] at h
      exact .inr (.inl ⟨d, rfl, rfl, h.symm⟩)
    | some v =>
      simp [h1, hv, bind, Except.bind, pure, Except.pure] at h
      exact .inl ⟨d, v, rfl, rfl, h.symm⟩

theorem exec_inp_stores (spare : Nat) {s : State} {d v : Int} (h1 : writeTarget 1 s = .ok d)
    (hv : inputOffer s = some v) : exec (.inp spare) s = .next (((s.writeCell d v).consumeInput).advance 2) := by
  simp [exec, execInp, h1, hv, bind, Except.bind, pure, Except.pure]

theorem exec_inp_holds (spare : Nat) {s : State} {d : Int} (h1 : writeTarget 1 s = .ok d)
    (hv : inputOffer s = none) : exec (.inp spare) s = .next s := by
  simp [exec, execInp, h1, hv, bind, Except.bind, pure, Except.pure]

theorem exec_inp_faults (spare : Nat) {s : State} {f : FaultRecord} (h1 : writeTarget 1 s = .error f) :
    exec (.inp spare) s = .next (s.takeFault f) := by
  simp [exec, execInp, h1, bind, Except.bind]

/-- The ends of OUT: it emits operand 1, or operand 1 faults. -/
theorem exec_out_cases {m1 : Mode} {spare : Nat} {s t : State} (h : exec (.out m1 spare) s = .next t) :
    (∃ a, readOperand (encode (.out m1 spare)) m1 1 s = .ok a ∧ t = (s.emit a).advance 2) ∨
    (∃ f, readOperand (encode (.out m1 spare)) m1 1 s = .error f ∧ t = s.takeFault f) := by
  simp only [exec] at h
  unfold execOut at h
  cases h1 : readOperand (encode (.out m1 spare)) m1 1 s with
  | error f =>
    simp [h1, bind, Except.bind] at h
    exact .inr ⟨f, rfl, h.symm⟩
  | ok a =>
    simp [h1, bind, Except.bind, pure, Except.pure] at h
    exact .inl ⟨a, rfl, h.symm⟩

theorem exec_out_emits {m1 : Mode} {spare : Nat} {s : State} {a : Int}
    (h1 : readOperand (encode (.out m1 spare)) m1 1 s = .ok a) : exec (.out m1 spare) s = .next ((s.emit a).advance 2) := by
  simp [exec, execOut, h1, bind, Except.bind, pure, Except.pure]

theorem exec_out_faults {m1 : Mode} {spare : Nat} {s : State} {f : FaultRecord}
    (h1 : readOperand (encode (.out m1 spare)) m1 1 s = .error f) : exec (.out m1 spare) s = .next (s.takeFault f) := by
  simp [exec, execOut, h1, bind, Except.bind]

/-- The ends of an instruction of format F3 as a whole (R128, R129). -/
theorem settle_threeOperand_cases {w : Int} {m1 m2 : Mode} {result : Int → Int → Except FaultRecord Int} {s t : State}
    (h : settle s (threeOperand w m1 m2 result s) = .next t) :
    (∃ a b d v, readOperand w m1 1 s = .ok a ∧ readOperand w m2 2 s = .ok b ∧ writeTarget 3 s = .ok d ∧
      result a b = .ok v ∧ t = (s.writeCell d v).advance 4) ∨
    (∃ f, t = s.takeFault f ∧ (operandFault w 1 s f ∨ operandFault w 2 s f ∨ targetFault 3 s f ∨
      ∃ a b, result a b = .error f)) := by
  obtain h | ⟨f, hf, rfl⟩ := settle_cases h
  · obtain ⟨a, b, d, v, h1, h2, h3, hv, h'⟩ | ⟨f, h', -⟩ | ⟨_, f, h', -⟩ | ⟨_, _, f, h', -⟩ | ⟨_, _, _, f, h', -⟩ :=
      threeOperand_cases h
    · cases h'; exact .inl ⟨a, b, d, v, h1, h2, h3, hv, rfl⟩
    all_goals cases h'
  · refine .inr ⟨f, rfl, ?_⟩
    obtain ⟨_, _, _, _, -, -, -, -, h'⟩ | ⟨f, h', h1⟩ | ⟨_, f, h', -, h1⟩ | ⟨_, _, f, h', -, -, h1⟩ |
      ⟨_, _, _, f, h', -, -, -, h1⟩ := threeOperand_cases hf
    all_goals cases h'
    · exact .inl (readOperand_error h1)
    · exact .inr (.inl (readOperand_error h1))
    · exact .inr (.inr (.inl (writeTarget_error h1)))
    · exact .inr (.inr (.inr ⟨_, _, h1⟩))

/-- The ends of a jump as a whole (R93, R129). -/
theorem settle_jumpIf_cases {w : Int} {m1 m2 : Mode} {taken : Int → Bool} {s t : State}
    (h : settle s (jumpIf w m1 m2 taken s) = .next t) :
    (∃ c a, readOperand w m1 1 s = .ok c ∧ readOperand w m2 2 s = .ok a ∧
      t = { s with pc := if taken c then a else s.pc + 3 }) ∨
    (∃ f, t = s.takeFault f ∧ (operandFault w 1 s f ∨ operandFault w 2 s f)) := by
  obtain h | ⟨f, hf, rfl⟩ := settle_cases h
  · obtain ⟨c, a, h1, h2, h'⟩ | ⟨f, h', -⟩ | ⟨_, f, h', -⟩ := jumpIf_cases h
    · cases h'
      refine .inl ⟨c, a, h1, h2, ?_⟩
      split <;> rfl
    all_goals cases h'
  · refine .inr ⟨f, rfl, ?_⟩
    obtain ⟨_, _, -, -, h'⟩ | ⟨f, h', h1⟩ | ⟨_, f, h', -, h1⟩ := jumpIf_cases hf
    all_goals cases h'
    · exact .inl (readOperand_error h1)
    · exact .inr (readOperand_error h1)

/-- The exact result, or the overflow of a finite width (R84). -/
theorem arithResult_cases (v : Int) (s : State) :
    (widthFits s.cfg.width v = true ∧ arithResult v s = .ok v) ∨
    (widthFits s.cfg.width v = false ∧ arithResult v s = .error (.arithmeticOverflow s.pc)) := by
  unfold arithResult
  cases h : widthFits s.cfg.width v <;> simp

/-- Fetch and dispatch give an instruction exactly when the word at `pc` decodes to it. -/
theorem fetchInstr_ok_iff {s : State} {i : Instr} :
    fetchInstr s = .ok i ↔ ∃ w, cellAt s.tape s.pc = some w ∧ decode w = .ok i := by
  unfold fetchInstr fetchWord memRead dispatch
  cases hc : cellAt s.tape s.pc with
  | none => simp
  | some w =>
    cases hd : decode w with
    | error e => simp [hd]
    | ok j => simp [hd]

/-- What fetch and dispatch can raise (R103, R104). -/
theorem fetchInstr_error {s : State} {f : FaultRecord} (h : fetchInstr s = .error f) :
    (¬ InBounds s.tape s.pc ∧ f = .outOfBounds s.pc) ∨
    (∃ w e, cellAt s.tape s.pc = some w ∧ decode w = .error e ∧ f = .unknownOpcode s.pc w) := by
  unfold fetchInstr fetchWord memRead dispatch at h
  cases hc : cellAt s.tape s.pc with
  | none =>
    simp [hc] at h
    exact .inl ⟨cellAt_eq_none_iff.mp hc, h.symm⟩
  | some w =>
    cases hd : decode w with
    | error e =>
      simp [hc, hd] at h
      exact .inr ⟨w, e, rfl, hd, h.symm⟩
    | ok j => simp [hc, hd] at h

theorem fetchInstr_unknown {s : State} {w : Int} {e : DecodeError} (hc : cellAt s.tape s.pc = some w)
    (hd : decode w = .error e) : fetchInstr s = .error (.unknownOpcode s.pc w) := by
  simp [fetchInstr, fetchWord, memRead, dispatch, hc, hd]

theorem fetchInstr_outside {s : State} (h : ¬ InBounds s.tape s.pc) :
    fetchInstr s = .error (.outOfBounds s.pc) := by
  simp [fetchInstr, fetchWord, memRead, cellAt_neg h]

/-- Fetch and dispatch look at the tape and `pc` only (R103, R104). -/
theorem fetchInstr_congr {s u : State} (ht : u.tape = s.tape) (hp : u.pc = s.pc) : fetchInstr u = fetchInstr s := by
  simp [fetchInstr, fetchWord, memRead, ht, hp]

theorem step_running {s : State} (h : s.status = .running) :
    step s = match fetchInstr s with
      | .error f => .next (s.takeFault f)
      | .ok i => exec i s := by
  cases hf : fetchInstr s <;> simp [step, h, hf]

/-- Everything a step can do: it starts in `RUNNING`, and either the fetch or the dispatch faults, or the decoded
instruction executes (R105). -/
theorem step_cases {s t : State} (h : step s = .next t) :
    s.status = .running ∧
      ((∃ f, fetchInstr s = .error f ∧ t = s.takeFault f) ∨ ∃ i, fetchInstr s = .ok i ∧ exec i s = .next t) := by
  unfold step at h
  split at h
  · cases h
  · cases h
  · next hr =>
    refine ⟨hr, ?_⟩
    split at h
    · next f hf => cases h; exact .inl ⟨f, hf, rfl⟩
    · next i hi => exact .inr ⟨i, hi, h⟩

/-- Placing cells at an address of or behind the tape: the first of them is the cell there. -/
theorem cellAt_placeCells (x : Tape) (p : Nat) (c : Int) (rest : List Int) :
    cellAt (placeCells x p (c :: rest)) (p : Int) = some c := by
  have hlen : ((x ++ List.replicate (p - x.length) 0).take p).length = p := by
    simp only [List.length_take, List.length_append, List.length_replicate]; omega
  have hb : InBounds (placeCells x p (c :: rest)) (p : Int) := by
    refine ⟨by omega, ?_⟩
    simp only [placeCells, List.length_append, hlen, List.length_cons]
    push_cast; omega
  rw [cellAt_pos hb]
  simp only [placeCells, Int.toNat_natCast, List.append_assoc]
  rw [List.getElem?_append_right (by omega)]
  simp [hlen]

/-- The very next step after `withFetchWord` runs the instruction that the table word decodes to. -/
theorem step_withFetchWord {s : State} {nbits w : Nat} {i : Instr} (h : decodeTableWord nbits w = some i) :
    step (s.withFetchWord nbits w) = exec i (s.withFetchWord nbits w) := by
  have hd : decode (w : Int) = .ok i := by
    unfold decodeTableWord at h
    split at h
    · next hj => cases h; exact hj
    · cases h
  have hf : fetchInstr (s.withFetchWord nbits w) = .ok i := by
    refine fetchInstr_ok_iff.mpr ⟨w, ?_, hd⟩
    have hp : ((if 0 ≤ s.pc then s.pc else 0).toNat : Int) = if 0 ≤ s.pc then s.pc else 0 := by
      split <;> omega
    have := cellAt_placeCells s.tape (if 0 ≤ s.pc then s.pc else 0).toNat (w : Int) [0, 0, 0]
    rw [hp] at this
    exact this
  rw [step_running (s := s.withFetchWord nbits w) rfl, hf]

end Sys2Proof.Machine
end

