-- ==== Sys2Proof/Tests/Slice0.lean ====
section
/-! SUPPORT. The model's own tests. Expected results are the spec's: the scenarios and vectors of 95_test_vectors.md (named
in the comments) and the words of 30_encoding.md. Then, for each statement with hypotheses, a witness that meets them. -/

namespace Sys2Proof.Tests

open Sys2Proof.Machine

/-- A running machine with the given tape and input, at `pc = 0`. -/
def tapeState (image : List Int) (input : List Int := []) : State := { State.reset with tape := image, input := input }

/-- The next state of a step, if there is one. -/
def afterStep (s : State) : Option State :=
  match step s with
  | .next t => some t
  | _ => none

/-- What most tests look at. -/
def view (s : State) : List Int × Int × Status × Option FaultRecord := (s.tape, s.pc, s.status, s.fault)

/-! ### Decoding: words written out from the digit fields of R51 -/

/-- ADD: C 0, B 1, A 1, DE 01. -/
theorem test_decode_add : decodeTableWord 16 1101 = some (.add .immediate .immediate 0) := by decide
/-- MUL: the source's word 1002, "immediate×position multiply". -/
theorem test_decode_mul : decodeTableWord 16 1002 = some (.mul .position .immediate 0) := by decide
theorem test_decode_in : decodeTableWord 16 103 = some (.inp 1) := by decide
theorem test_decode_out : decodeTableWord 16 104 = some (.out .immediate 0) := by decide
theorem test_decode_jt : decodeTableWord 16 1105 = some (.jt .immediate .immediate 0) := by decide
theorem test_decode_jf : decodeTableWord 16 1006 = some (.jf .position .immediate 0) := by decide
theorem test_decode_lt : decodeTableWord 16 107 = some (.lt .immediate .position 0) := by decide
theorem test_decode_eq : decodeTableWord 16 1108 = some (.eq .immediate .immediate 0) := by decide
theorem test_decode_halt : decodeTableWord 16 10099 = some (.halt 100) := by decide
/-- Section 2.1: A 5, B 4, C 3. -/
theorem test_decode_illegal_modes : decodeTableWord 32 1234501 = some (.add (.illegal 5) (.illegal 4) 123) := by decide
theorem test_decode_rejects : [0, 9, 10, 98, 1100].map (decodeTableWord 16) = [none, none, none, none, none] := by decide
theorem test_decode_rejects_negative : decode (-1) = .error .negativeWord ∧ decode (-99) = .error .negativeWord :=
  ⟨rfl, rfl⟩
theorem test_encode_add : encode (.add .immediate .position 2) = 20101 := by decide

/-! ### WellFormed: an ill-formed term for each check -/

theorem test_illformed_digits : (Mode.illegal 0).wf = false ∧ (Mode.illegal 1).wf = false ∧ (Mode.illegal 10).wf = false := by
  decide
theorem test_illformed_first_mode :
    [Instr.add (.illegal 1) .position 0, .mul (.illegal 1) .position 0, .out (.illegal 1) 0, .jt (.illegal 1) .position 0,
      .jf (.illegal 1) .position 0, .lt (.illegal 1) .position 0, .eq (.illegal 1) .position 0].map Instr.wf =
    List.replicate 7 false := by decide
theorem test_illformed_second_mode :
    [Instr.add .position (.illegal 10) 0, .mul .position (.illegal 10) 0, .jt .position (.illegal 10) 0,
      .jf .position (.illegal 10) 0, .lt .position (.illegal 10) 0, .eq .position (.illegal 10) 0].map Instr.wf =
    List.replicate 6 false := by decide
theorem test_illformed_width : Config.wf ⟨.bits 1, .malformedOperand⟩ = false := by decide
theorem test_wellformed_digits : (Mode.illegal 2).wf = true ∧ (Mode.illegal 9).wf = true := by decide

/-! ### One step of each instruction -/

/-- Scenario A (source). -/
theorem test_add_scenario_a :
    (afterStep (tapeState [1, 0, 0, 0, 99])).map view = some ([2, 0, 0, 0, 99], 4, .running, none) := by decide
/-- V-ADD-3: the write operand's mode digit is ignored. -/
theorem test_add_ignores_mode_of_target :
    (afterStep (tapeState [11101, 2, 3, 5, 99, 0])).map view = some ([11101, 2, 3, 5, 99, 5], 4, .running, none) := by decide
/-- Scenario E (source). -/
theorem test_mul_scenario_e :
    (afterStep (tapeState [1002, 4, 3, 4, 33])).map view = some ([1002, 4, 3, 4, 99], 4, .running, none) := by decide
/-- V-MUL-4: 2^32 * 2^32, no wrap. -/
theorem test_mul_does_not_wrap :
    (afterStep (tapeState [1102, 4294967296, 4294967296, 5, 99, 0])).map (fun t => cellAt t.tape 5) =
      some (some 18446744073709551616) := by decide
/-- V-IN-3: IN overwrites its own opcode cell and advances by 2. -/
theorem test_in_over_its_own_word :
    (afterStep (tapeState [3, 0, 99] [5])).map (fun t => (t.tape, t.pc, t.inPos)) = some ([5, 0, 99], 2, 1) := by decide
/-- V-IN-5: no integer, the machine is held. -/
theorem test_in_holds :
    (tapeState [3, 3, 99, 0]).held = true ∧ afterStep (tapeState [3, 3, 99, 0]) = some (tapeState [3, 3, 99, 0]) := by decide
/-- V-OUT-2. -/
theorem test_out_negative :
    (afterStep (tapeState [104, -9, 99])).map (fun t => (t.out, t.pc)) = some ([-9], 2) := by decide
/-- V-F-20: nothing emitted. -/
theorem test_out_absent_operand :
    (afterStep (tapeState [4, 9, 99])).map (fun t => (t.out, t.pc, t.fault)) =
      some ([], 0, some (.malformedOperand 0 1)) := by decide
/-- Scenario F (source). -/
theorem test_jt_scenario_f :
    (afterStep (tapeState [1105, 0, 100])).map view = some ([1105, 0, 100], 3, .running, none) := by decide
/-- V-JT-3: a negative condition is true. -/
theorem test_jt_negative_is_true : (afterStep (tapeState [1105, -1, 3, 99])).map (·.pc) = some 3 := by decide
/-- V-JF-3: both operands in position mode. -/
theorem test_jf_positions : (afterStep (tapeState [6, 4, 5, 99, 0, 3])).map (·.pc) = some 3 := by decide
/-- V-JF-2, with the target told apart from the fall-through. -/
theorem test_jf_not_taken : (afterStep (tapeState [1106, 7, 0, 99])).map (·.pc) = some 3 := by decide
/-- V-LT-3: signed. -/
theorem test_lt_signed :
    (afterStep (tapeState [1107, -3, -2, 5, 99, 7])).map (·.tape) = some [1107, -3, -2, 5, 99, 1] := by decide
/-- V-LT-2: strict. -/
theorem test_lt_strict :
    (afterStep (tapeState [1107, 8, 8, 5, 99, -1])).map (·.tape) = some [1107, 8, 8, 5, 99, 0] := by decide
/-- V-EQ-3: the destination is the instruction's own operand cell. -/
theorem test_eq_own_operand_cell :
    (afterStep (tapeState [108, 5, 1, 1, 99])).map (·.tape) = some [108, 1, 1, 1, 99] := by decide
/-- V-EQ-2. -/
theorem test_eq_unequal :
    (afterStep (tapeState [1108, 7, 8, 5, 99, -1])).map (·.tape) = some [1108, 7, 8, 5, 99, 0] := by decide
/-- V-H-4: a start pointer of 2, a HALT in the last cell, the result is `x[0]`. -/
theorem test_halt_in_the_last_cell :
    (load ⟨.unbounded, .malformedOperand⟩ [5, 5, 99] 2).bind (fun s => (afterStep s).map (fun t => (t.status, t.pc, t.result))) =
      some (.halted, 2, some 5) := by decide

/-! ### Faults -/

/-- V-F-1: reset with no image. -/
theorem test_fetch_on_no_cells : (afterStep State.reset).map view = some ([], 0, .faulted, some (.outOfBounds 0)) := by decide
/-- V-F-7 and V-F-9: the raw word is recorded whole. -/
theorem test_unknown_opcode :
    (afterStep (tapeState [1100, 1, 1, 0])).map (·.fault) = some (some (.unknownOpcode 0 1100)) ∧
      (afterStep (tapeState [-99])).map (·.fault) = some (some (.unknownOpcode 0 (-99))) := by decide
/-- V-F-11, V-F-12, V-F-14: the second operand's cell, the target's cell, a negative target. -/
theorem test_truncated_add :
    (afterStep (tapeState [1101, 1])).map (·.fault) = some (some (.malformedOperand 0 2)) ∧
      (afterStep (tapeState [1101, 1, 1])).map (·.fault) = some (some (.outOfBounds 3)) ∧
      (afterStep (tapeState [1101, 1, 1, -1, 99])).map view =
        some ([1101, 1, 1, -1, 99], 0, .faulted, some (.outOfBounds (-1))) := by decide
/-- V-F-17: operand 1 before the destination. -/
theorem test_priority :
    (afterStep (tapeState [201, 0, 0, 9])).map (·.fault) = some (some (.illegalMode 0 201 1)) := by decide
/-- V-F-18: a faulting IN consumes nothing. -/
theorem test_in_faults_before_consuming :
    (afterStep (tapeState [3, 5, 99] [1])).map (fun t => (t.inPos, t.fault)) = some (0, some (.outOfBounds 5)) := by decide
/-- V-F-22: a jump not taken still needs its target. -/
theorem test_jump_needs_target :
    (afterStep (tapeState [105, 0, 100, 99])).map (·.fault) = some (some (.malformedOperand 0 2)) := by decide
/-- Section 2.7, last line: the other value of `POS_TARGET_FAULT`. -/
theorem test_pos_target_fault :
    (afterStep { tapeState [1, 100, 0, 0, 99] with cfg := ⟨.unbounded, .outOfBounds⟩ }).map (·.fault) =
      some (some (.outOfBounds 100)) := by decide
/-- R84 with `W = 8`: 127 is the largest cell value. -/
theorem test_overflow_of_a_finite_width :
    (afterStep { tapeState [1101, 27, 100, 0] with cfg := ⟨.bits 8, .malformedOperand⟩ }).map (fun t => cellAt t.tape 0) =
      some (some 127) ∧
    (afterStep { tapeState [1101, 28, 100, 0] with cfg := ⟨.bits 8, .malformedOperand⟩ }).map (·.fault) =
      some (some (.arithmeticOverflow 0)) := by decide

/-! ### The resolver, the walk, the notation, the run, the host's load -/

/-- Section 2.8. -/
theorem test_probe :
    [probeOperand [1002, 4, 3, 4, 33] 0 1, probeOperand [1002, 4, 3, 4, 33] 4 1, probeOperand [1002, 4, 3, 4, 33] 3 1] =
      [some 33, none, none] := by decide
/-- Section 2.9, third row: clipped at the tail. -/
theorem test_walk_clips :
    walk [3, 3, 99, 1101, 1] = [.instruction [3, 3], .instruction [99], .instruction [1101, 1]] := by decide
/-- Program P1 and its image. -/
theorem test_assemble_p1 :
    assemble [.inp 19, .jf (.pos 19) (.imm 16), .add (.pos 19) (.pos 20) 20, .add (.imm (-1)) (.pos 19) 19,
      .jt (.imm 1) (.imm 2), .out (.pos 20), .halt, .data 0, .data 0] =
    [3, 19, 1006, 19, 16, 1, 19, 20, 20, 101, -1, 19, 19, 1105, 1, 2, 4, 20, 99, 0, 0] := by decide
/-- Program P2: the second step fetches what the first one wrote; the result is 1101. -/
theorem test_run_p2 :
    (match runFor 2 (tapeState [1101, 50, 49, 4, 0]) with | .halted r t => some (r, t.tape) | _ => none) =
      some (some 1101, [1101, 50, 49, 4, 99]) := by decide
/-- The word of a table row, placed at reset, is the instruction the first step runs. -/
theorem test_with_fetch_word :
    (afterStep (State.reset.withFetchWord 8 4)).map (fun t => (t.out, t.pc)) = some ([4], 2) ∧
      (afterStep (State.reset.withFetchWord 8 99)).map (·.status) = some .halted := by decide

/-! ### Witnesses: states and operands that meet the hypotheses of the statements -/

theorem witness_DecodeAfterEncode : (Instr.add (.illegal 9) .immediate 7).wf = true ∧ (Instr.halt 0).wf = true := by decide
theorem witness_EncodeAfterDecode : decode 1234501 = .ok (.add (.illegal 5) (.illegal 4) 123) := rfl
theorem witness_OpcodeAndModesAreDecimalDigits :
    1201 % 100 = 1 ∧ 1002 % 100 = 2 ∧ 103 % 100 = 3 ∧ 904 % 100 = 4 ∧ 1105 % 100 = 5 ∧ 6 % 100 = 6 ∧ 107 % 100 = 7 ∧
      1108 % 100 = 8 ∧ 10099 % 100 = 99 ∧ 100 % 100 ∉ [1, 2, 3, 4, 5, 6, 7, 8, 99] ∧
      98 % 100 ∉ [1, 2, 3, 4, 5, 6, 7, 8, 99] ∧ (-1 : Int) < 0 := by decide
theorem witness_LengthIsAFunctionOfTheOpcode :
    decode (1108 : Nat) = .ok (.eq .immediate .immediate 0) ∧ decode (104 : Nat) = .ok (.out .immediate 0) ∧
      decode (5 : Nat) = .ok (.jt .position .position 0) ∧ decode (199 : Nat) = .ok (.halt 1) := ⟨rfl, rfl, rfl, rfl⟩
theorem witness_UnknownOpcodeFaultsAtDispatch :
    (tapeState [98]).status = .running ∧ cellAt (tapeState [98]).tape (tapeState [98]).pc = some 98 ∧ (0 : Int) ≤ 98 ∧
      98 % 100 ∉ ([1, 2, 3, 4, 5, 6, 7, 8, 99] : List Int) ∧ 1100 % 100 ∉ ([1, 2, 3, 4, 5, 6, 7, 8, 99] : List Int) := by decide
theorem witness_NegativeWordFaultsAtDispatch :
    (tapeState [-1]).status = .running ∧ cellAt (tapeState [-1]).tape (tapeState [-1]).pc = some (-1) ∧ (-1 : Int) < 0 := by
  decide
/-- A legal mode; and an illegal one, with which two words that differ in an unexamined digit record each its own word. -/
theorem witness_UnexaminedDigitsHaveNoEffect :
    Instr.eq ∈ [Instr.add, Instr.mul, Instr.jt, Instr.jf, Instr.lt, Instr.eq] ∧ Mode.legal .immediate = true ∧
      (afterStep (tapeState [1208, 0, 0, 0])).map (·.fault) = some (some (.illegalMode 0 1208 1)) ∧
      (afterStep (tapeState [11208, 0, 0, 0])).map (·.fault) = some (some (.illegalMode 0 11208 1)) :=
  ⟨by simp, rfl, rfl, rfl⟩
/-- Digits 2 and 9; a digit 1 and a digit 0 at the end of the tape; an immediate; a position in and out of bounds. -/
theorem witness_ReadOperandFollowsTheModeDigit :
    201 / 10 ^ 2 % 10 = 2 ∧ 901 / 10 ^ 2 % 10 = 9 ∧
      (104 / 10 ^ 2 % 10 ≤ 1 ∧ ¬ InBounds (tapeState [104]).tape ((tapeState [104]).pc + 1)) ∧
      (4 / 10 ^ 2 % 10 ≤ 1 ∧ ¬ InBounds (tapeState [4]).tape ((tapeState [4]).pc + 1)) ∧
      (104 / 10 ^ 2 % 10 = 1 ∧ cellAt (tapeState [104, -9]).tape (0 + 1) = some (-9)) ∧
      (4 / 10 ^ 2 % 10 = 0 ∧ cellAt (tapeState [4, 1]).tape (0 + 1) = some 1 ∧ cellAt (tapeState [4, 1]).tape 1 = some 1) ∧
      (4 / 10 ^ 2 % 10 = 0 ∧ cellAt (tapeState [4, 2]).tape (0 + 1) = some 2 ∧ ¬ InBounds (tapeState [4, 2]).tape 2) := by
  decide
theorem witness_WriteTargetIsTheRawCell :
    ¬ InBounds (tapeState [3]).tape (0 + 1) ∧
      (cellAt (tapeState [3, 1]).tape (0 + 1) = some 1 ∧ InBounds (tapeState [3, 1]).tape 1) ∧
      (cellAt (tapeState [3, 2]).tape (0 + 1) = some 2 ∧ ¬ InBounds (tapeState [3, 2]).tape 2) := by decide
theorem witness_StrictOperandIsTheProbeUnwrapped :
    cellAt (tapeState [4, 1]).tape 0 = some ((4 : Nat) : Int) ∧ (modeAt 1 4).legal = true ∧
      probeOperand (tapeState [4, 1]).tape 0 1 = some 1 ∧ cellAt (tapeState [4, 2]).tape 0 = some ((4 : Nat) : Int) ∧
      probeOperand (tapeState [4, 2]).tape 0 1 = none := by decide
theorem witness_CheckedAccessReadsWhatWasWritten :
    InBounds (tapeState [7, 8]).tape 0 ∧ InBounds (tapeState [7, 8]).tape 1 ∧ ¬ InBounds (tapeState [7, 8]).tape 2 ∧
      ¬ InBounds (tapeState [7, 8]).tape (-1) := by decide
/-- ADD with both operands and the target in order; then one state for each fault. -/
theorem witness_AddWritesTheSum :
    encode (.add .immediate .position 0) = 101 ∧
      (readOperand 101 .immediate 1 (tapeState [101, 2, 3, 3]) = .ok 2 ∧
        readOperand 101 .position 2 (tapeState [101, 2, 3, 3]) = .ok 3 ∧ writeTarget 3 (tapeState [101, 2, 3, 3]) = .ok 3 ∧
        widthFits .unbounded (2 + 3) = true) ∧
      readOperand 101 .immediate 1 (tapeState [101]) = .error (.malformedOperand 0 1) ∧
      (readOperand 101 .immediate 1 (tapeState [101, 2]) = .ok 2 ∧
        readOperand 101 .position 2 (tapeState [101, 2]) = .error (.malformedOperand 0 2)) ∧
      writeTarget 3 (tapeState [101, 2, 1]) = .error (.outOfBounds 3) ∧
      widthFits (.bits 2) (2 + 3) = false := ⟨rfl, ⟨rfl, rfl, rfl, rfl⟩, rfl, ⟨rfl, rfl⟩, rfl, rfl⟩
theorem witness_MulWritesTheProduct :
    encode (.mul .position .immediate 0) = 1002 ∧
      (readOperand 1002 .position 1 (tapeState [1002, 4, 3, 4, 33]) = .ok 33 ∧
        readOperand 1002 .immediate 2 (tapeState [1002, 4, 3, 4, 33]) = .ok 3 ∧
        writeTarget 3 (tapeState [1002, 4, 3, 4, 33]) = .ok 4 ∧ widthFits .unbounded (33 * 3) = true) ∧
      readOperand 1002 .position 1 (tapeState [1002, 9]) = .error (.malformedOperand 0 1) ∧
      (readOperand 1002 .position 1 (tapeState [1002, 0]) = .ok 1002 ∧
        readOperand 1002 .immediate 2 (tapeState [1002, 0]) = .error (.malformedOperand 0 2)) ∧
      writeTarget 3 (tapeState [1002, 0, 1, 4]) = .error (.outOfBounds 4) ∧
      widthFits (.bits 2) (33 * 3) = false := ⟨rfl, ⟨rfl, rfl, rfl, rfl⟩, rfl, ⟨rfl, rfl⟩, rfl, rfl⟩
theorem witness_InStoresTheNextInput :
    writeTarget 1 (tapeState [3, 0] [77]) = .ok 0 ∧ (tapeState [3, 0] [77]).input[(tapeState [3, 0] [77]).inPos]? = some 77 ∧
      widthFits .unbounded 77 = true ∧ writeTarget 1 (tapeState [3, 2] [77]) = .error (.outOfBounds 2) := ⟨rfl, rfl, rfl, rfl⟩
theorem witness_OutEmitsOperandOne :
    encode (.out .position 0) = 4 ∧ readOperand 4 .position 1 (tapeState [4, 0]) = .ok 4 ∧
      readOperand 4 .position 1 (tapeState [4, -1]) = .error (.malformedOperand 0 1) := ⟨rfl, rfl, rfl⟩
theorem witness_JtJumpsWhenNotZero :
    encode (.jt .immediate .immediate 0) = 1105 ∧
      (readOperand 1105 .immediate 1 (tapeState [1105, -1, 7]) = .ok (-1) ∧
        readOperand 1105 .immediate 2 (tapeState [1105, -1, 7]) = .ok 7) ∧
      (readOperand 1105 .immediate 1 (tapeState [1105, 0, 7]) = .ok 0 ∧
        readOperand 1105 .immediate 2 (tapeState [1105, 0, 7]) = .ok 7) ∧
      readOperand 1105 .immediate 1 (tapeState [1105]) = .error (.malformedOperand 0 1) ∧
      (readOperand 1105 .immediate 1 (tapeState [1105, 1]) = .ok 1 ∧
        readOperand 1105 .immediate 2 (tapeState [1105, 1]) = .error (.malformedOperand 0 2)) :=
  ⟨rfl, ⟨rfl, rfl⟩, ⟨rfl, rfl⟩, rfl, rfl, rfl⟩
theorem witness_JfJumpsWhenZero :
    encode (.jf .immediate .position 0) = 106 ∧
      (readOperand 106 .immediate 1 (tapeState [106, 0, 0]) = .ok 0 ∧
        readOperand 106 .position 2 (tapeState [106, 0, 0]) = .ok 106) ∧
      (readOperand 106 .immediate 1 (tapeState [106, 5, 0]) = .ok 5 ∧
        readOperand 106 .position 2 (tapeState [106, 5, 0]) = .ok 106) ∧
      readOperand 106 .immediate 1 (tapeState [106]) = .error (.malformedOperand 0 1) ∧
      (readOperand 106 .immediate 1 (tapeState [106, 1]) = .ok 1 ∧
        readOperand 106 .position 2 (tapeState [106, 1]) = .error (.malformedOperand 0 2)) :=
  ⟨rfl, ⟨rfl, rfl⟩, ⟨rfl, rfl⟩, rfl, rfl, rfl⟩
/-- LT: a less, an equal pair, and the three faults. -/
theorem witness_LtWritesOneOrZero :
    encode (.lt .immediate .immediate 0) = 1107 ∧
      (readOperand 1107 .immediate 1 (tapeState [1107, -3, -2, 0]) = .ok (-3) ∧
        readOperand 1107 .immediate 2 (tapeState [1107, -3, -2, 0]) = .ok (-2) ∧ (-3 : Int) < -2 ∧
        writeTarget 3 (tapeState [1107, -3, -2, 0]) = .ok 0) ∧
      (readOperand 1107 .immediate 1 (tapeState [1107, 8, 8, 0]) = .ok 8 ∧
        readOperand 1107 .immediate 2 (tapeState [1107, 8, 8, 0]) = .ok 8 ∧ ¬ (8 : Int) < 8) ∧
      readOperand 1107 .immediate 1 (tapeState [1107]) = .error (.malformedOperand 0 1) ∧
      readOperand 1107 .immediate 2 (tapeState [1107, 1]) = .error (.malformedOperand 0 2) ∧
      writeTarget 3 (tapeState [1107, 1, 1, 4]) = .error (.outOfBounds 4) :=
  ⟨rfl, ⟨rfl, rfl, by decide, rfl⟩, ⟨rfl, rfl, by decide⟩, rfl, rfl, rfl⟩
theorem witness_EqWritesOneOrZero :
    encode (.eq .immediate .position 0) = 108 ∧
      (readOperand 108 .immediate 1 (tapeState [108, 5, 1, 1]) = .ok 5 ∧
        readOperand 108 .position 2 (tapeState [108, 5, 1, 1]) = .ok 5 ∧ writeTarget 3 (tapeState [108, 5, 1, 1]) = .ok 1) ∧
      (readOperand 108 .position 2 (tapeState [108, 5, 0, 1]) = .ok 108 ∧ (5 : Int) ≠ 108) ∧
      readOperand 108 .immediate 1 (tapeState [108]) = .error (.malformedOperand 0 1) ∧
      readOperand 108 .position 2 (tapeState [108, 1, 9]) = .error (.malformedOperand 0 2) ∧
      writeTarget 3 (tapeState [108, 1, 1]) = .error (.outOfBounds 3) :=
  ⟨rfl, ⟨rfl, rfl, rfl⟩, ⟨rfl, by decide⟩, rfl, rfl, rfl⟩
theorem witness_HaltChangesOnlyStatus :
    ∃ s : State, s.tape = [2, 0, 0, 0, 99] ∧ s.pc = 4 ∧ s.status = .running :=
  ⟨{ tapeState [2, 0, 0, 0, 99] with pc := 4 }, rfl, rfl, rfl⟩
theorem witness_JumpNeedsItsTargetOperand :
    readOperand (encode (.jt .immediate .position 0)) .immediate 1 (tapeState [105, 0, 100, 99]) = .ok 0 ∧
      readOperand (encode (.jt .immediate .position 0)) .position 2 (tapeState [105, 0, 100, 99]) =
        .error (.malformedOperand 0 2) ∧
      readOperand (encode (.jf .immediate (.illegal 2) 0)) .immediate 1 (tapeState [2106, 1, 1]) = .ok 1 ∧
      readOperand (encode (.jf .immediate (.illegal 2) 0)) (.illegal 2) 2 (tapeState [2106, 1, 1]) =
        .error (.illegalMode 0 2106 2) := ⟨rfl, rfl, rfl, rfl⟩
theorem witness_JumpTargetIsCheckedByTheNextFetch :
    readOperand (encode (.jt .immediate .immediate 0)) .immediate 1 (tapeState [1105, 1, -2, 99]) = .ok 1 ∧
      readOperand (encode (.jt .immediate .immediate 0)) .immediate 2 (tapeState [1105, 1, -2, 99]) = .ok (-2) ∧
      ¬ InBounds (tapeState [1105, 1, -2, 99]).tape (-2) ∧
      readOperand (encode (.jf .immediate .immediate 0)) .immediate 1 (tapeState [1106, 0, 3]) = .ok 0 ∧
      readOperand (encode (.jf .immediate .immediate 0)) .immediate 2 (tapeState [1106, 0, 3]) = .ok 3 ∧
      ¬ InBounds (tapeState [1106, 0, 3]).tape 3 := ⟨rfl, rfl, by decide, rfl, rfl, by decide⟩
theorem witness_InWaitsUntilTheHostSupplies :
    writeTarget 1 (tapeState [3, 0]) = .ok 0 ∧ (tapeState [3, 0]).input[(tapeState [3, 0]).inPos]? = none ∧
      (tapeState [3, 0]).status = .running ∧ fetchInstr (tapeState [3, 0]) = .ok (.inp 0) ∧
      (tapeState [3, 0]).inPos = (tapeState [3, 0]).input.length ∧
      State.supply 7 (tapeState [3, 0]) = some (tapeState [3, 0] [7]) := ⟨rfl, rfl, rfl, rfl, rfl, rfl⟩
/-- A storing, a holding and a faulting end. -/
theorem witness_StoringInstructionsFrame :
    storeOperand (.mul .immediate .immediate 0) = some 3 ∧ storeOperand (.inp 0) = some 1 ∧
      (∃ t, exec (.mul .immediate .immediate 0) (tapeState [1102, 2, 3, 0]) = .next t) ∧
      (∃ t, exec (.inp 0) (tapeState [3, 0]) = .next t) ∧
      writeTarget 3 (tapeState [1102, 2, 3, 0]) = .ok 0 := ⟨rfl, rfl, ⟨_, rfl⟩, ⟨_, rfl⟩, rfl⟩
theorem witness_NonStoringInstructionsFrame :
    storeOperand (.out .immediate 0) = none ∧ storeOperand (.halt 0) = none ∧
      (∃ t, exec (.out .immediate 0) (tapeState [104, -9]) = .next t) ∧
      (∃ t, exec (.halt 0) (tapeState [99]) = .next t) := ⟨rfl, rfl, ⟨_, rfl⟩, ⟨_, rfl⟩⟩
theorem witness_StepRunsTheDecodedInstruction :
    (tapeState [99]).status = .running ∧ cellAt (tapeState [99]).tape (tapeState [99]).pc = some 99 ∧
      decode 99 = .ok (.halt 0) := ⟨rfl, rfl, rfl⟩
theorem witness_FetchOutsideTheTapeFaults :
    State.reset.status = .running ∧ State.reset.tape = [] ∧
      ¬ InBounds (tapeState [99]).tape { tapeState [99] with pc := 1 }.pc ∧
      ¬ InBounds (tapeState [99]).tape { tapeState [99] with pc := -1 }.pc := by decide
theorem witness_NoStepInATerminalState :
    (tapeState [99]).haltNow.status = .halted ∧ ((tapeState []).takeFault (.outOfBounds 0)).status = .faulted ∧
      State.reset.status = .running := ⟨rfl, rfl, rfl⟩
/-- A step that faults, as the statements about faulting steps suppose. -/
theorem witness_FaultEntryIsPrecise :
    ∃ t, step (tapeState [1101, 1, 1, 9, 99]) = .next t ∧ t.status = .faulted ∧ t.fault = some (.outOfBounds 9) :=
  ⟨_, rfl, rfl, rfl⟩
theorem witness_FaultsFollowTheCrossTable :
    (∃ t, step (tapeState [201, 0, 0, 9]) = .next t ∧ t.status = .faulted) ∧
      (∃ t, step (tapeState [0]) = .next t ∧ t.status = .faulted) ∧
      ∃ t, step (tapeState []) = .next t ∧ t.status = .faulted := ⟨⟨_, rfl, rfl⟩, ⟨_, rfl, rfl⟩, ⟨_, rfl, rfl⟩⟩
theorem witness_UnreachableFaultKinds :
    (tapeState [0]).fault = none ∧ (∃ t, step (tapeState [0]) = .next t) ∧ (tapeState [0]).cfg.width = .unbounded :=
  ⟨rfl, ⟨_, rfl⟩, rfl⟩
/-- A completing and a faulting step at a word of each clause of the statement about `pc`. -/
theorem witness_PointerAfterEachInstruction :
    cellAt (tapeState [1106, 0, 7]).tape 0 = some ((1106 : Nat) : Int) ∧
      (∃ t, step (tapeState [1106, 0, 7]) = .next t ∧ t.status ≠ .faulted ∧ t.pc = 7) ∧
      (∃ t, step (tapeState [3, 0]) = .next t ∧ t.status ≠ .faulted ∧ (tapeState [3, 0]).held = true) ∧
      (∃ t, step (tapeState [104, 0]) = .next t ∧ t.status ≠ .faulted ∧ t.pc = 2) ∧
      ∃ t, step (tapeState [104]) = .next t ∧ t.status = .faulted :=
  ⟨rfl, ⟨_, rfl, by decide, rfl⟩, ⟨_, rfl, by decide, rfl⟩, ⟨_, rfl, by decide, rfl⟩, ⟨_, rfl, rfl⟩⟩
theorem witness_HaltedExactlyByHalt :
    (∃ t, step (tapeState [199]) = .next t ∧ t.status = .halted) ∧
      ∃ t, step (tapeState [1105, 1, 0]) = .next t ∧ t.status = .running := ⟨⟨_, rfl, rfl⟩, ⟨_, rfl, rfl⟩⟩
/-- A step that changes a cell, for write operand 3 and for write operand 1. -/
theorem witness_AtMostOneCellPerStep :
    (∃ t, step (tapeState [1108, 7, 7, 0]) = .next t ∧ t.tape = [1, 7, 7, 0]) ∧
      ∃ t, step (tapeState [3, 1] [8]) = .next t ∧ t.tape = [3, 8] := ⟨⟨_, rfl, rfl⟩, ⟨_, rfl, rfl⟩⟩
theorem witness_OnlyOutAppendsToTheLog : ∃ t, step (tapeState [4, 0]) = .next t ∧ t.out = [4] := ⟨_, rfl, rfl⟩
theorem witness_OnlyInConsumesInput : ∃ t, step (tapeState [3, 0] [8]) = .next t ∧ t.inPos = 1 := ⟨_, rfl, rfl⟩
/-- Program P2, and an IN whose target is the cell after it. -/
theorem witness_NextFetchSeesTheWrite :
    readOperand (encode (.add .immediate .immediate 0)) .immediate 1 (tapeState [1101, 50, 49, 4, 0]) = .ok 50 ∧
      readOperand (encode (.add .immediate .immediate 0)) .immediate 2 (tapeState [1101, 50, 49, 4, 0]) = .ok 49 ∧
      writeTarget 3 (tapeState [1101, 50, 49, 4, 0]) = .ok ((tapeState [1101, 50, 49, 4, 0]).pc + 4) ∧
      writeTarget 1 (tapeState [3, 2, 0] [99]) = .ok ((tapeState [3, 2, 0] [99]).pc + 2) ∧
      inputOffer (tapeState [3, 2, 0] [99]) = some 99 := ⟨rfl, rfl, rfl, rfl, rfl⟩
theorem witness_StepReadsOnlyTheNextInput :
    ([8, 1, 2] : List Int)[(tapeState [3, 0] [8]).inPos]? = (tapeState [3, 0] [8]).input[(tapeState [3, 0] [8]).inPos]? ∧
      ∃ t, step (tapeState [3, 0] [8]) = .next t := ⟨rfl, ⟨_, rfl⟩⟩
theorem witness_NoInstructionReadsTheLog : ∃ t, step { tapeState [4, 0] with out := [6] } = .next t ∧ t.out = [6, 4] :=
  ⟨_, rfl, rfl⟩
theorem witness_PosTargetFaultOnlyNamesTheFault :
    ∃ t, exec (.out .position 0) { tapeState [4, 9] with cfg := ⟨.unbounded, .outOfBounds⟩ } = .next t ∧
      t.fault = some (.outOfBounds 9) := ⟨_, rfl, rfl⟩
theorem witness_FiniteWidthAgreesUntilOverflow :
    ([7] : List Int).all (widthFits (.bits 8)) = true ∧
      ∃ t, exec (.add .immediate .immediate 0) { tapeState [1101, 27, 100, 0] [7] with cfg := ⟨.bits 8, .malformedOperand⟩ } =
        .next t ∧ t.fault = none ∧ cellAt t.tape 0 = some 127 := ⟨rfl, ⟨_, rfl, rfl, rfl⟩⟩
/-- An image that fits, one that does not, and a start pointer outside the tape. -/
theorem witness_LoadSetsEveryItem :
    (∀ v ∈ ([-128, 127] : List Int) ++ [5], widthFits (.bits 8) v = true) ∧
      (∃ v ∈ ([128] : List Int) ++ [], widthFits (.bits 8) v = false) ∧
      (load ⟨.unbounded, .malformedOperand⟩ [99] (-3)).isSome = true ∧ ¬ InBounds [99] (-3) := by decide
theorem witness_HostPortsKeepTheInvariant :
    Config.wf ⟨.bits 2, .malformedOperand⟩ = true ∧ (load ⟨.bits 8, .malformedOperand⟩ [99]).isSome = true ∧
      (State.supply 7 State.reset).isSome = true := by decide
/-- The invariant holds of a running machine with cells, and it steps. -/
theorem witness_StepKeepsTheInvariant : (tapeState [99]).Inv ∧ ∃ t, step (tapeState [99]) = .next t :=
  ⟨⟨rfl, rfl, rfl, by decide, by decide, fun h => by cases h⟩, ⟨_, rfl⟩⟩
theorem witness_EveryRunSatisfiesTheInvariant :
    load ⟨.unbounded, .malformedOperand⟩ [99] = some (tapeState [99]) ∧
      Reaches (tapeState [99]) (tapeState [99]).haltNow := ⟨rfl, .step .refl rfl⟩
/-- A run with a step and a supplied integer. -/
theorem witness_LengthAndParametersNeverChange :
    Reaches (tapeState [3, 0]) { tapeState [7, 0] [7] with pc := 2, inPos := 1 } :=
  .step (.supply 7 .refl rfl : Reaches (tapeState [3, 0]) (tapeState [3, 0] [7])) rfl
theorem witness_OutputLogOnlyGrows : Reaches (tapeState [4, 0]) { tapeState [4, 0] with out := [4], pc := 2 } :=
  .step .refl rfl
theorem witness_TerminalStatesAreAbsorbing :
    (tapeState [99]).haltNow.status ≠ .running ∧
      Reaches (tapeState [99]).haltNow { (tapeState [99]).haltNow with input := [7] } :=
  ⟨by decide, .supply 7 .refl rfl⟩
theorem witness_ResultExistsOnceHalted :
    (tapeState [99]).haltNow.Inv ∧ (tapeState [99]).haltNow.status = .halted ∧ State.reset.status ≠ .halted :=
  ⟨⟨rfl, rfl, rfl, by decide, by decide, fun _ => ⟨0, rfl⟩⟩, rfl, by decide⟩
theorem witness_EndedRunsStayEnded :
    (∃ t, runFor 1 (tapeState [99]) = .halted (some 99) t) ∧
      (∃ t, runFor 1 (tapeState [0]) = .faulted (some (.unknownOpcode 0 0)) t) ∧
      runFor 0 (tapeState [99]) = .unfinished (tapeState [99]) := ⟨⟨_, rfl⟩, ⟨_, rfl⟩, rfl⟩
theorem witness_WalkCutsInstructionByInstruction :
    decode 30 = .error (.unregisteredOpcode 30) ∧ decode 1101 = .ok (.add .immediate .immediate 0) := ⟨rfl, rfl⟩
theorem witness_StatementsAssembleToOneInstruction :
    (Stmt.lt (.pos 1) (.imm 2) 3).instr = some (.lt .position .immediate 0) := by decide

end Sys2Proof.Tests
end

section
/-! A word that spells no instruction: what the decoder answers for it and how the step takes the fault (R57, R58, R129). -/

namespace Sys2Proof

/-- R57: a number whose two low digits are in no row of the opcode table is an unregistered opcode. -/
theorem decodeNat_unregistered {n : Nat} (h : n % 100 ∉ [1, 2, 3, 4, 5, 6, 7, 8, 99]) :
    decodeNat n = .error (.unregisteredOpcode (n % 100)) := by
  -- every other case of the dispatch names an opcode of the table, which `h` excludes
  obtain ⟨hm, -⟩ | ⟨hm, -⟩ | ⟨hm, -⟩ | ⟨hm, -⟩ | ⟨hm, -⟩ | ⟨hm, -⟩ | ⟨hm, -⟩ | ⟨hm, -⟩ | ⟨hm, -⟩ | ⟨-, hd⟩ :=
    decodeNat_cases n
  pick_goal 10
  · exact hd
  all_goals exact absurd (by rw [hm]; decide) h

/-- R57 over the words as integers. -/
theorem decode_unregistered {w : Int} (h0 : 0 ≤ w)
    (h : w % 100 ∉ ([1, 2, 3, 4, 5, 6, 7, 8, 99] : List Int)) :
    decode w = .error (.unregisteredOpcode (w.toNat % 100)) := by
  obtain ⟨n, rfl⟩ := Int.eq_ofNat_of_zero_le h0
  rw [decode_ofNat, Int.toNat_natCast]
  refine decodeNat_unregistered fun hmem => h ?_
  simpa [← Int.natCast_mod] using List.mem_map_of_mem (f := Nat.cast (R := Int)) hmem

namespace Machine

/-- A fault of the fetch or of the dispatch is taken at the state in which the step began (R105, R129). -/
theorem step_of_fetchInstr_error {s : State} {f : FaultRecord} (hr : s.status = .running)
    (hf : fetchInstr s = .error f) : step s = .next (s.takeFault f) := by
  rw [step_running hr, hf]

/-- A word at `pc` that does not decode faults at dispatch, whatever the cells after it hold (R57, R58, R104). -/
theorem step_of_decode_error {s : State} {w : Int} {e : DecodeError} (hr : s.status = .running)
    (hc : cellAt s.tape s.pc = some w) (hd : decode w = .error e) :
    step s = .next (s.takeFault (.unknownOpcode s.pc w)) :=
  step_of_fetchInstr_error hr (fetchInstr_unknown hc hd)

/-- Settles O6: the word decodes to no instruction, so the dispatch faults, and fault entry writes `STATUS` and `FAULT`
alone. -/
theorem unknownOpcodeFaultsAtDispatch : Obligations.UnknownOpcodeFaultsAtDispatch := by
  unfold Obligations.UnknownOpcodeFaultsAtDispatch
  intro s w hr hc h0 hw
  exact step_of_decode_error hr hc (decode_unregistered h0 hw)

end Machine

end Sys2Proof
end

section
/-! ADD and MUL: the write of the exact result and the faults in the order of their checks, once for both (R81, R82,
R84). The lemmas of format F3 hold for any result and so for the comparisons too. -/

namespace Sys2Proof

/-- The two low decimal digits of the encoded word are the opcode (R51, R65). -/
theorem Laws.WordFields.Statement.encode_emod {i : Instr} (h : Laws.WordFields.Statement i) :
    encode i % 100 = i.opcode := by
  obtain ⟨-, hmod, -⟩ := h
  unfold encode
  exact_mod_cast hmod

namespace Machine

/-- A running machine whose word at `pc` decodes executes that instruction (R103 to R105). -/
theorem step_of_decode_ok {s : State} {w : Int} {i : Instr} (hr : s.status = .running)
    (hc : cellAt s.tape s.pc = some w) (hd : decode w = .ok i) : step s = exec i s := by
  rw [step_running hr, fetchInstr_ok_iff.mpr ⟨w, hc, hd⟩]

theorem arithResult_fits {v : Int} {s : State} (h : widthFits s.cfg.width v = true) : arithResult v s = .ok v :=
  if_pos h

theorem arithResult_overflow {v : Int} {s : State} (h : widthFits s.cfg.width v = false) :
    arithResult v s = .error (.arithmeticOverflow s.pc) :=
  if_neg (by simp [h])

section
variable {w : Int} {m1 m2 : Mode} {s : State} {a b : Int} {f : FaultRecord}
  {result : Int → Int → Except FaultRecord Int}

/-- Format F3 in full: one write and the advance, every other item as it was (R36, R80). -/
theorem settle_threeOperand_writes {d v : Int} (h1 : readOperand w m1 1 s = .ok a)
    (h2 : readOperand w m2 2 s = .ok b) (h3 : writeTarget 3 s = .ok d) (hv : result a b = .ok v) :
    settle s (threeOperand w m1 m2 result s) = .next { s with tape := setCell s.tape d v, pc := s.pc + 4 } := by
  rw [threeOperand_ok h1 h2 h3 hv]
  rfl

/-- Operand 1 is checked first: its fault is taken whatever the rest holds (R128). -/
theorem settle_threeOperand_error_one (h1 : readOperand w m1 1 s = .error f) :
    operandFault w 1 s f ∧ settle s (threeOperand w m1 m2 result s) = .next (s.takeFault f) :=
  ⟨readOperand_error h1, by rw [threeOperand_error_one h1, settle_error]⟩

/-- Operand 2 is checked before the target (R128). -/
theorem settle_threeOperand_error_two (h1 : readOperand w m1 1 s = .ok a) (h2 : readOperand w m2 2 s = .error f) :
    operandFault w 2 s f ∧ settle s (threeOperand w m1 m2 result s) = .next (s.takeFault f) :=
  ⟨readOperand_error h2, by rw [threeOperand_error_two h1 h2, settle_error]⟩

/-- The target is checked before the result is formed (R128). -/
theorem settle_threeOperand_error_target (h1 : readOperand w m1 1 s = .ok a) (h2 : readOperand w m2 2 s = .ok b)
    (h3 : writeTarget 3 s = .error f) :
    targetFault 3 s f ∧ settle s (threeOperand w m1 m2 result s) = .next (s.takeFault f) :=
  ⟨writeTarget_error h3, by rw [threeOperand_error_target h1 h2 h3, settle_error]⟩

/-- A result that cannot be formed is the last fault, and the target keeps its content (R128, R129). -/
theorem settle_threeOperand_error_result {d : Int} (h1 : readOperand w m1 1 s = .ok a)
    (h2 : readOperand w m2 2 s = .ok b) (h3 : writeTarget 3 s = .ok d) (hv : result a b = .error f) :
    settle s (threeOperand w m1 m2 result s) = .next (s.takeFault f) := by
  rw [threeOperand_error_result h1 h2 h3 hv, settle_error]

end

/-- What an exact operation of format F3 does in each of its five ends (R80, R84, R128). -/
theorem settle_arith_ends (op : Int → Int → Int) {w : Int} {m1 m2 : Mode} {s : State}
    {e : Host.Outcome State Fault Refusal}
    (he : e = settle s (threeOperand w m1 m2 (fun a b => arithResult (op a b) s) s)) :
    (∀ a b d, readOperand w m1 1 s = .ok a → readOperand w m2 2 s = .ok b → writeTarget 3 s = .ok d →
      widthFits s.cfg.width (op a b) = true →
      e = .next { s with tape := setCell s.tape d (op a b), pc := s.pc + 4 }) ∧
    (∀ f, readOperand w m1 1 s = .error f → operandFault w 1 s f ∧ e = .next (s.takeFault f)) ∧
    (∀ a f, readOperand w m1 1 s = .ok a → readOperand w m2 2 s = .error f →
      operandFault w 2 s f ∧ e = .next (s.takeFault f)) ∧
    (∀ a b f, readOperand w m1 1 s = .ok a → readOperand w m2 2 s = .ok b → writeTarget 3 s = .error f →
      targetFault 3 s f ∧ e = .next (s.takeFault f)) ∧
    (∀ a b d, readOperand w m1 1 s = .ok a → readOperand w m2 2 s = .ok b → writeTarget 3 s = .ok d →
      widthFits s.cfg.width (op a b) = false → e = .next (s.takeFault (.arithmeticOverflow s.pc))) := by
  subst he
  refine ⟨fun a b d h1 h2 h3 hfit => ?writes, fun f h1 => ?one, fun a f h1 h2 => ?two,
    fun a b f h1 h2 h3 => ?target, fun a b d h1 h2 h3 hfit => ?overflow⟩
  case writes => exact settle_threeOperand_writes h1 h2 h3 (arithResult_fits hfit)
  case one => exact settle_threeOperand_error_one h1
  case two => exact settle_threeOperand_error_two h1 h2
  case target => exact settle_threeOperand_error_target h1 h2 h3
  case overflow => exact settle_threeOperand_error_result h1 h2 h3 (arithResult_overflow hfit)

theorem exec_add (m1 m2 : Mode) (sp : Nat) (s : State) : exec (.add m1 m2 sp) s =
    settle s (threeOperand (encode (.add m1 m2 sp)) m1 m2 (fun a b => arithResult (a + b) s) s) := rfl

theorem exec_mul (m1 m2 : Mode) (sp : Nat) (s : State) : exec (.mul m1 m2 sp) s =
    settle s (threeOperand (encode (.mul m1 m2 sp)) m1 m2 (fun a b => arithResult (a * b) s) s) := rfl

/-- Settles O14: ADD is the F3 operation whose result is the exact sum; Scenario A is a step to its write, with operands
1 and 1 and target 0. -/
theorem addWritesTheSum : Obligations.AddWritesTheSum := by
  unfold Obligations.AddWritesTheSum
  refine ⟨?effect, rfl, ?scenarioA⟩
  case effect =>
    rintro m1 m2 sp s _ rfl
    exact ⟨(Laws.WordFields.add m1 m2 sp).encode_emod, settle_arith_ends (· + ·) (exec_add m1 m2 sp s)⟩
  case scenarioA =>
    rintro ⟨_, _, _, _, _, _, _, _, _⟩ rfl rfl rfl rfl
    rw [step_of_decode_ok (w := 1) (i := .add .position .position 0) rfl rfl rfl, exec_add]
    exact settle_threeOperand_writes (a := 1) (b := 1) (d := 0) (v := 2) rfl rfl rfl rfl

/-- Settles O15: MUL is the F3 operation whose result is the whole product; Scenario E is a step to its write, with
operands 33 and 3 and target 4. -/
theorem mulWritesTheProduct : Obligations.MulWritesTheProduct := by
  unfold Obligations.MulWritesTheProduct
  refine ⟨?effect, rfl, ?scenarioE⟩
  case effect =>
    rintro m1 m2 sp s _ rfl
    exact ⟨(Laws.WordFields.mul m1 m2 sp).encode_emod, settle_arith_ends (· * ·) (exec_mul m1 m2 sp s)⟩
  case scenarioE =>
    rintro ⟨_, _, _, _, _, _, _, _, _⟩ rfl rfl rfl rfl
    rw [step_of_decode_ok (w := 1002) (i := .mul .position .immediate 0) rfl rfl rfl, exec_mul]
    exact settle_threeOperand_writes (a := 33) (b := 3) (d := 4) (v := 99) rfl rfl rfl rfl

end Machine

end Sys2Proof
end

section
/-! OUT: the value it emits, or its operand's fault with nothing emitted (R87). -/

namespace Sys2Proof.Machine

/-- Settles O17: OUT does what its one operand's read answers; the worked example is a step to the emission of the
immediate operand -9. -/
theorem outEmitsOperandOne : Obligations.OutEmitsOperandOne := by
  unfold Obligations.OutEmitsOperandOne
  refine ⟨?effect, rfl, ?workedExample⟩
  case effect =>
    rintro m1 sp s _ rfl
    refine ⟨(Laws.WordFields.out m1 sp).encode_emod, fun a h1 => ?emits, fun f h1 => ?faults⟩
    case emits => exact exec_out_emits h1
    case faults => exact ⟨readOperand_error h1, exec_out_faults h1⟩
  case workedExample =>
    rintro ⟨_, _, _, _, _, _, _, _⟩ rfl rfl rfl rfl
    rw [step_of_decode_ok (w := 104) (i := .out .immediate 0) rfl rfl rfl]
    exact exec_out_emits (a := -9) rfl

end Sys2Proof.Machine
end

section
/-! JT and JF: the exact target or the advance by 3, and the faults of both operands in order, once for both (R90, R91,
R93). -/

namespace Sys2Proof.Machine

section
variable {w : Int} {m1 m2 : Mode} {taken : Int → Bool} {s : State} {c t : Int} {f : FaultRecord}

/-- A taken jump goes to operand 2 as it stands, unchecked (R92). -/
theorem settle_jumpIf_taken (h1 : readOperand w m1 1 s = .ok c) (h2 : readOperand w m2 2 s = .ok t)
    (hc : taken c = true) : settle s (jumpIf w m1 m2 taken s) = .next { s with pc := t } := by
  rw [jumpIf_ok h1 h2, if_pos hc]
  rfl

/-- A jump that is not taken advances by its length (R55). -/
theorem settle_jumpIf_untaken (h1 : readOperand w m1 1 s = .ok c) (h2 : readOperand w m2 2 s = .ok t)
    (hc : taken c = false) : settle s (jumpIf w m1 m2 taken s) = .next { s with pc := s.pc + 3 } := by
  rw [jumpIf_ok h1 h2, if_neg (by simp [hc])]
  rfl

/-- Operand 1 is checked first: its fault is taken whatever the target operand holds (R128). -/
theorem settle_jumpIf_error_one (h1 : readOperand w m1 1 s = .error f) :
    operandFault w 1 s f ∧ settle s (jumpIf w m1 m2 taken s) = .next (s.takeFault f) :=
  ⟨readOperand_error h1, by rw [jumpIf_error_one h1, settle_error]⟩

/-- The target operand is required whether or not the jump would be taken (R93). -/
theorem settle_jumpIf_error_two (h1 : readOperand w m1 1 s = .ok c) (h2 : readOperand w m2 2 s = .error f) :
    operandFault w 2 s f ∧ settle s (jumpIf w m1 m2 taken s) = .next (s.takeFault f) :=
  ⟨readOperand_error h2, by rw [jumpIf_error_two h1 h2, settle_error]⟩

end

/-- What a jump does in each of its four ends: `jumps` and `stays` say in the rule's words on which values of operand 1
the test answers true and false (R93, R128). -/
theorem settle_jumpIf_ends {taken : Int → Bool} {jumps stays : Int → Prop} (hjumps : ∀ c, jumps c → taken c = true)
    (hstays : ∀ c, stays c → taken c = false) {w : Int} {m1 m2 : Mode} {s : State}
    {e : Host.Outcome State Fault Refusal} (he : e = settle s (jumpIf w m1 m2 taken s)) :
    (∀ c t, readOperand w m1 1 s = .ok c → readOperand w m2 2 s = .ok t →
      (jumps c → e = .next { s with pc := t }) ∧ (stays c → e = .next { s with pc := s.pc + 3 })) ∧
    (∀ f, readOperand w m1 1 s = .error f → operandFault w 1 s f ∧ e = .next (s.takeFault f)) ∧
    (∀ c f, readOperand w m1 1 s = .ok c → readOperand w m2 2 s = .error f →
      operandFault w 2 s f ∧ e = .next (s.takeFault f)) := by
  subst he
  refine ⟨fun c t h1 h2 => ⟨fun hc => ?taken, fun hc => ?untaken⟩, fun f h1 => ?one, fun c f h1 h2 => ?two⟩
  case taken => exact settle_jumpIf_taken h1 h2 (hjumps c hc)
  case untaken => exact settle_jumpIf_untaken h1 h2 (hstays c hc)
  case one => exact settle_jumpIf_error_one h1
  case two => exact settle_jumpIf_error_two h1 h2

theorem exec_jt (m1 m2 : Mode) (sp : Nat) (s : State) : exec (.jt m1 m2 sp) s =
    settle s (jumpIf (encode (.jt m1 m2 sp)) m1 m2 (fun c => conditionHolds c) s) := rfl

theorem exec_jf (m1 m2 : Mode) (sp : Nat) (s : State) : exec (.jf m1 m2 sp) s =
    settle s (jumpIf (encode (.jf m1 m2 sp)) m1 m2 (fun c => !conditionHolds c) s) := rfl

@[simp] theorem conditionHolds_eq_true {c : Int} : conditionHolds c = true ↔ c ≠ 0 := decide_eq_true_iff

@[simp] theorem conditionHolds_eq_false {c : Int} : conditionHolds c = false ↔ c = 0 := by simp [conditionHolds]

/-- Settles O18: JT is the jump taken when operand 1 is not zero; Scenario F is a step that is not taken, with operands
0 and 100. -/
theorem jtJumpsWhenNotZero : Obligations.JtJumpsWhenNotZero := by
  unfold Obligations.JtJumpsWhenNotZero
  refine ⟨?effect, rfl, ?scenarioF⟩
  case effect =>
    rintro m1 m2 sp s _ rfl
    exact ⟨(Laws.WordFields.jt m1 m2 sp).encode_emod, settle_jumpIf_ends (fun _ => conditionHolds_eq_true.mpr)
      (fun _ => conditionHolds_eq_false.mpr) (exec_jt m1 m2 sp s)⟩
  case scenarioF =>
    rintro ⟨_, _, _, _, _, _, _, _⟩ rfl rfl rfl
    rw [step_of_decode_ok (w := 1105) (i := .jt .immediate .immediate 0) rfl rfl rfl, exec_jt]
    exact settle_jumpIf_untaken (c := 0) (t := 100) rfl rfl rfl

/-- Settles O19: JF is the jump taken when operand 1 is zero; the worked example is a step that is taken, with operands
0 and 4. -/
theorem jfJumpsWhenZero : Obligations.JfJumpsWhenZero := by
  unfold Obligations.JfJumpsWhenZero
  refine ⟨?effect, rfl, ?workedExample⟩
  case effect =>
    rintro m1 m2 sp s _ rfl
    have hjumps : ∀ c : Int, c = 0 → (!conditionHolds c) = true := by simp
    have hstays : ∀ c : Int, c ≠ 0 → (!conditionHolds c) = false := by simp
    exact ⟨(Laws.WordFields.jf m1 m2 sp).encode_emod, settle_jumpIf_ends hjumps hstays (exec_jf m1 m2 sp s)⟩
  case workedExample =>
    rintro ⟨_, _, _, _, _, _, _, _⟩ rfl rfl rfl
    rw [step_of_decode_ok (w := 1106) (i := .jf .immediate .immediate 0) rfl rfl rfl, exec_jf]
    exact settle_jumpIf_taken (c := 0) (t := 4) rfl rfl rfl

end Sys2Proof.Machine
end

section
/-! LT and EQ: the truth value of the comparison as 1 or 0, and the faults in the order of their checks, once for both
(R95, R96). -/

namespace Sys2Proof.Machine

@[simp] theorem truthValue_true : truthValue true = 1 := rfl

@[simp] theorem truthValue_false : truthValue false = 0 := rfl

/-- What a comparison of format F3 does in each of its five ends: the truth value can always be formed, so the target is
the last thing that can fault (R95, R128). -/
theorem settle_compare_ends (rel : Int → Int → Prop) [DecidableRel rel] {w : Int} {m1 m2 : Mode} {s : State}
    {e : Host.Outcome State Fault Refusal}
    (he : e = settle s (threeOperand w m1 m2 (fun a b => .ok (truthValue (decide (rel a b)))) s)) :
    (∀ a b d, readOperand w m1 1 s = .ok a → readOperand w m2 2 s = .ok b → writeTarget 3 s = .ok d →
      (rel a b → e = .next { s with tape := setCell s.tape d 1, pc := s.pc + 4 }) ∧
      (¬ rel a b → e = .next { s with tape := setCell s.tape d 0, pc := s.pc + 4 })) ∧
    (∀ f, readOperand w m1 1 s = .error f → operandFault w 1 s f ∧ e = .next (s.takeFault f)) ∧
    (∀ a f, readOperand w m1 1 s = .ok a → readOperand w m2 2 s = .error f →
      operandFault w 2 s f ∧ e = .next (s.takeFault f)) ∧
    (∀ a b f, readOperand w m1 1 s = .ok a → readOperand w m2 2 s = .ok b → writeTarget 3 s = .error f →
      targetFault 3 s f ∧ e = .next (s.takeFault f)) := by
  subst he
  refine ⟨fun a b d h1 h2 h3 => ⟨fun hrel => ?one, fun hrel => ?zero⟩, fun f h1 => ?operandOne,
    fun a f h1 h2 => ?operandTwo, fun a b f h1 h2 h3 => ?target⟩
  case one => exact settle_threeOperand_writes h1 h2 h3 (by rw [decide_eq_true hrel, truthValue_true])
  case zero => exact settle_threeOperand_writes h1 h2 h3 (by rw [decide_eq_false hrel, truthValue_false])
  case operandOne => exact settle_threeOperand_error_one h1
  case operandTwo => exact settle_threeOperand_error_two h1 h2
  case target => exact settle_threeOperand_error_target h1 h2 h3

theorem exec_lt (m1 m2 : Mode) (sp : Nat) (s : State) : exec (.lt m1 m2 sp) s =
    settle s (threeOperand (encode (.lt m1 m2 sp)) m1 m2 (fun a b => .ok (truthValue (decide (a < b)))) s) := rfl

theorem exec_eq (m1 m2 : Mode) (sp : Nat) (s : State) : exec (.eq m1 m2 sp) s =
    settle s (threeOperand (encode (.eq m1 m2 sp)) m1 m2 (fun a b => .ok (truthValue (decide (a = b)))) s) := rfl

/-- Settles O20: LT is the F3 operation whose result is the truth value of the strict signed order; the worked example is
a step to its write, with operands 3 and 8 and target 5. -/
theorem ltWritesOneOrZero : Obligations.LtWritesOneOrZero := by
  unfold Obligations.LtWritesOneOrZero
  refine ⟨?effect, rfl, ?workedExample⟩
  case effect =>
    rintro m1 m2 sp s _ rfl
    exact ⟨(Laws.WordFields.lt m1 m2 sp).encode_emod, settle_compare_ends (· < ·) (exec_lt m1 m2 sp s)⟩
  case workedExample =>
    rintro ⟨_, _, _, _, _, _, _, _⟩ rfl rfl rfl
    rw [step_of_decode_ok (w := 1107) (i := .lt .immediate .immediate 0) rfl rfl rfl, exec_lt]
    exact settle_threeOperand_writes (a := 3) (b := 8) (d := 5) (v := 1) rfl rfl rfl rfl

/-- Settles O21: EQ is the F3 operation whose result is the truth value of integer equality; the worked example is a step
to its write, with both operands 8 and target 7. -/
theorem eqWritesOneOrZero : Obligations.EqWritesOneOrZero := by
  unfold Obligations.EqWritesOneOrZero
  refine ⟨?effect, rfl, ?workedExample⟩
  case effect =>
    rintro m1 m2 sp s _ rfl
    exact ⟨(Laws.WordFields.eq m1 m2 sp).encode_emod, settle_compare_ends (· = ·) (exec_eq m1 m2 sp s)⟩
  case workedExample =>
    rintro ⟨_, _, _, _, _, _, _, _⟩ rfl rfl rfl
    rw [step_of_decode_ok (w := 8) (i := .eq .position .position 0) rfl rfl rfl, exec_eq]
    exact settle_threeOperand_writes (a := 8) (b := 8) (d := 7) (v := 1) rfl rfl rfl rfl

end Sys2Proof.Machine
end

section
/-! HALT: `STATUS` alone changes, and the result port then shows the first cell (R100, R22). -/

namespace Sys2Proof.Machine

theorem exec_halt (sp : Nat) (s : State) : exec (.halt sp) s = .next s.haltNow := rfl

/-- A machine that halts shows the first cell of its tape at the result port (R22). -/
@[simp] theorem State.haltNow_result (s : State) : s.haltNow.result = cellAt s.tape 0 := rfl

/-- Settles O22: HALT is the update of `STATUS` alone, whatever its other digits; the worked example is the last step of
Scenario A, with the result 2 in the first cell. -/
theorem haltChangesOnlyStatus : Obligations.HaltChangesOnlyStatus := by
  unfold Obligations.HaltChangesOnlyStatus
  refine ⟨fun sp s => ?effect, rfl, rfl, rfl, fun s htape hpc hrun => ⟨?lastStep, ?result⟩⟩
  case effect => exact ⟨(Laws.WordFields.halt sp).encode_emod, exec_halt sp s⟩
  case lastStep =>
    have hcell : cellAt s.tape s.pc = some 99 := by rw [htape, hpc]; rfl
    rw [step_of_decode_ok (i := .halt 0) hrun hcell rfl]
    exact exec_halt 0 s
  case result =>
    calc s.haltNow.result = cellAt s.tape 0 := s.haltNow_result
      _ = some 2 := by rw [htape]; rfl

end Sys2Proof.Machine
end

section
/-! The cross-table of faults: each instruction that ends in `FAULTED` took a fault of its own row (R133). -/

namespace Sys2Proof.Machine

/-- An exact result that cannot be formed has overflowed a finite width (R84, R126). -/
theorem arithResult_error {v : Int} {s : State} {f : FaultRecord} (h : arithResult v s = .error f) :
    s.cfg.width ≠ .unbounded ∧ f = .arithmeticOverflow s.pc := by
  obtain ⟨-, hr⟩ | ⟨hfit, hr⟩ := arithResult_cases v s
  · cases hr.symm.trans h
  · cases hr.symm.trans h
    have hw : s.cfg.width ≠ .unbounded := fun hw => by simp [hw, widthFits] at hfit
    exact ⟨hw, rfl⟩

section
variable {s t : State} (hs : s.status ≠ .faulted) (ht : t.status = .faulted)
include hs ht

/-- The faults of format F3, for any result: of an operand, of the target, or of the result itself. -/
theorem settle_threeOperand_faulted {w : Int} {m1 m2 : Mode} {result : Int → Int → Except FaultRecord Int}
    (h : settle s (threeOperand w m1 m2 result s) = .next t) :
    ∃ f, t = s.takeFault f ∧ (operandFault w 1 s f ∨ operandFault w 2 s f ∨ targetFault 3 s f ∨
      ∃ a b, result a b = .error f) := by
  obtain ⟨_, _, _, _, -, -, -, -, rfl⟩ | hfault := settle_threeOperand_cases h
  · exact absurd ht hs
  · exact hfault

/-- The row of ADD and MUL. -/
theorem settle_arith_faulted (op : Int → Int → Int) {w : Int} {m1 m2 : Mode}
    (h : settle s (threeOperand w m1 m2 (fun a b => arithResult (op a b) s) s) = .next t) :
    ∃ f, t = s.takeFault f ∧ (operandFault w 1 s f ∨ operandFault w 2 s f ∨ targetFault 3 s f ∨
      (s.cfg.width ≠ .unbounded ∧ f = .arithmeticOverflow s.pc)) := by
  obtain ⟨f, rfl, hrow⟩ := settle_threeOperand_faulted hs ht h
  exact ⟨f, rfl, hrow.imp_right (.imp_right (.imp_right fun ⟨_, _, hr⟩ => arithResult_error hr))⟩

/-- The row of LT and EQ: a truth value can always be formed (R95, R96). -/
theorem settle_compare_faulted (value : Int → Int → Int) {w : Int} {m1 m2 : Mode}
    (h : settle s (threeOperand w m1 m2 (fun a b => .ok (value a b)) s) = .next t) :
    ∃ f, t = s.takeFault f ∧ (operandFault w 1 s f ∨ operandFault w 2 s f ∨ targetFault 3 s f) := by
  obtain ⟨f, rfl, h1 | h2 | h3 | ⟨_, _, hr⟩⟩ := settle_threeOperand_faulted hs ht h
  · exact ⟨f, rfl, .inl h1⟩
  · exact ⟨f, rfl, .inr (.inl h2)⟩
  · exact ⟨f, rfl, .inr (.inr h3)⟩
  · cases hr

/-- The row of JT and JF. -/
theorem settle_jumpIf_faulted {w : Int} {m1 m2 : Mode} {taken : Int → Bool}
    (h : settle s (jumpIf w m1 m2 taken s) = .next t) :
    ∃ f, t = s.takeFault f ∧ (operandFault w 1 s f ∨ operandFault w 2 s f) := by
  obtain ⟨_, _, -, -, rfl⟩ | hfault := settle_jumpIf_cases h
  · exact absurd ht hs
  · exact hfault

/-- The row of IN: storing and holding keep `STATUS`. -/
theorem exec_inp_faulted {sp : Nat} (h : exec (.inp sp) s = .next t) :
    ∃ f, t = s.takeFault f ∧ targetFault 1 s f := by
  obtain ⟨_, _, -, -, rfl⟩ | ⟨_, -, -, rfl⟩ | ⟨f, h1, rfl⟩ := exec_inp_cases h
  · exact absurd ht hs
  · exact absurd ht hs
  · exact ⟨f, rfl, writeTarget_error h1⟩

/-- The row of OUT. -/
theorem exec_out_faulted {m1 : Mode} {sp : Nat} (h : exec (.out m1 sp) s = .next t) :
    ∃ f, t = s.takeFault f ∧ operandFault (encode (.out m1 sp)) 1 s f := by
  obtain ⟨_, -, rfl⟩ | ⟨f, h1, rfl⟩ := exec_out_cases h
  · exact absurd ht hs
  · exact ⟨f, rfl, readOperand_error h1⟩

/-- An instruction that ends in `FAULTED` took a fault that its row of the table allows (R129, R133). -/
theorem exec_faulted {i : Instr} (h : exec i s = .next t) : ∃ f, t = s.takeFault f ∧ faultAllowed i s f := by
  cases i with
  | add m1 m2 sp => exact settle_arith_faulted hs ht (· + ·) (exec_add m1 m2 sp s ▸ h)
  | mul m1 m2 sp => exact settle_arith_faulted hs ht (· * ·) (exec_mul m1 m2 sp s ▸ h)
  | inp sp => exact exec_inp_faulted hs ht h
  | out m1 sp => exact exec_out_faulted hs ht h
  | jt m1 m2 sp => exact settle_jumpIf_faulted hs ht (exec_jt m1 m2 sp s ▸ h)
  | jf m1 m2 sp => exact settle_jumpIf_faulted hs ht (exec_jf m1 m2 sp s ▸ h)
  | lt m1 m2 sp => exact settle_compare_faulted hs ht _ (exec_lt m1 m2 sp s ▸ h)
  | eq m1 m2 sp => exact settle_compare_faulted hs ht _ (exec_eq m1 m2 sp s ▸ h)
  | halt sp =>
    rw [exec_halt] at h
    cases h
    cases ht

end

/-- Settles O33: a step begins in `RUNNING`, so one that ends in `FAULTED` took the fault of its fetch or dispatch, or one
that the row of the instruction it executed allows. -/
theorem faultsFollowTheCrossTable : Obligations.FaultsFollowTheCrossTable := by
  unfold Obligations.FaultsFollowTheCrossTable
  intro s t h ht
  obtain ⟨hrun, ⟨f, hf, rfl⟩ | ⟨i, hi, hexec⟩⟩ := step_cases h
  · exact ⟨f, rfl, (fetchInstr_error hf).imp_right .inl⟩
  · have hs : s.status ≠ .faulted := by simp [hrun]
    obtain ⟨w, hcell, hdecode⟩ := fetchInstr_ok_iff.mp hi
    obtain ⟨f, rfl, hrow⟩ := exec_faulted hs ht hexec
    exact ⟨f, rfl, .inr (.inr ⟨w, i, hcell, hdecode, hrow⟩)⟩

end Sys2Proof.Machine
end

section
/-! Decoding and encoding undo each other: the fields of a word read back and written again, and what each value of the
two low digits selects (R51 to R60, R65). -/

namespace Sys2Proof

section
variable {n : Nat}

theorem decodeNat_add (h : n % 100 = 1) : decodeNat n = .ok (.add (modeAt 1 n) (modeAt 2 n) (n / 10000)) := by
  simp only [decodeNat, h]

theorem decodeNat_mul (h : n % 100 = 2) : decodeNat n = .ok (.mul (modeAt 1 n) (modeAt 2 n) (n / 10000)) := by
  simp only [decodeNat, h]

theorem decodeNat_inp (h : n % 100 = 3) : decodeNat n = .ok (.inp (n / 100)) := by
  simp only [decodeNat, h]

theorem decodeNat_out (h : n % 100 = 4) : decodeNat n = .ok (.out (modeAt 1 n) (n / 1000)) := by
  simp only [decodeNat, h]

theorem decodeNat_jt (h : n % 100 = 5) : decodeNat n = .ok (.jt (modeAt 1 n) (modeAt 2 n) (n / 10000)) := by
  simp only [decodeNat, h]

theorem decodeNat_jf (h : n % 100 = 6) : decodeNat n = .ok (.jf (modeAt 1 n) (modeAt 2 n) (n / 10000)) := by
  simp only [decodeNat, h]

theorem decodeNat_lt (h : n % 100 = 7) : decodeNat n = .ok (.lt (modeAt 1 n) (modeAt 2 n) (n / 10000)) := by
  simp only [decodeNat, h]

theorem decodeNat_eq (h : n % 100 = 8) : decodeNat n = .ok (.eq (modeAt 1 n) (modeAt 2 n) (n / 10000)) := by
  simp only [decodeNat, h]

theorem decodeNat_halt (h : n % 100 = 99) : decodeNat n = .ok (.halt (n / 100)) := by
  simp only [decodeNat, h]

end

/-- An operation with two modes is read back from the word of its fields, once for all six of them. -/
theorem decodeNat_wordAB {mk : Mode → Mode → Nat → Instr} {op : Nat} {m1 m2 : Mode} (sp : Nat)
    (hmk : ∀ {n : Nat}, n % 100 = op → decodeNat n = .ok (mk (modeAt 1 n) (modeAt 2 n) (n / 10000)))
    (hop : op < 100) (h : (m1.wf && m2.wf) = true) : decodeNat (wordAB op m1 m2 sp) = .ok (mk m1 m2 sp) := by
  obtain ⟨h1, h2⟩ := Bool.and_eq_true_iff.mp h
  rw [hmk (wordAB_mod hop), modeAt_one_wordAB hop h1, modeAt_two_wordAB hop h1 h2, wordAB_div hop h1 h2]

theorem decodeNat_inpWord (sp : Nat) : decodeNat (3 + 100 * sp) = .ok (.inp sp) := by
  have hsp : (3 + 100 * sp) / 100 = sp := by omega
  rw [decodeNat_inp (by omega), hsp]

theorem decodeNat_haltWord (sp : Nat) : decodeNat (99 + 100 * sp) = .ok (.halt sp) := by
  have hsp : (99 + 100 * sp) / 100 = sp := by omega
  rw [decodeNat_halt (by omega), hsp]

theorem decodeNat_outWord {m : Mode} (hm : m.wf = true) (sp : Nat) :
    decodeNat (4 + 100 * m.digit + 1000 * sp) = .ok (.out m sp) := by
  have hle := Mode.digit_le hm
  have hdigit : digit 2 (4 + 100 * m.digit + 1000 * sp) = m.digit := by
    simp only [digit]; norm_num; omega
  have hsp : (4 + 100 * m.digit + 1000 * sp) / 1000 = sp := by omega
  rw [decodeNat_out (by omega), modeAt, hdigit, Mode.ofDigit_digit hm, hsp]

/-- The decoder reads every well-formed instruction back from its word, illegal mode digits included. -/
theorem decode_encode {i : Instr} (h : i.wf = true) : decode (encode i) = .ok i := by
  rw [encode, decode_ofNat]
  cases i with
  | add m1 m2 sp => exact decodeNat_wordAB sp decodeNat_add (by decide) h
  | mul m1 m2 sp => exact decodeNat_wordAB sp decodeNat_mul (by decide) h
  | inp sp => exact decodeNat_inpWord sp
  | out m1 sp => exact decodeNat_outWord h sp
  | jt m1 m2 sp => exact decodeNat_wordAB sp decodeNat_jt (by decide) h
  | jf m1 m2 sp => exact decodeNat_wordAB sp decodeNat_jf (by decide) h
  | lt m1 m2 sp => exact decodeNat_wordAB sp decodeNat_lt (by decide) h
  | eq m1 m2 sp => exact decodeNat_wordAB sp decodeNat_eq (by decide) h
  | halt sp => exact decodeNat_haltWord sp

/-- A number whose two low digits are `op` is the word of `op` and its own fields. -/
theorem wordAB_of_mod {n op : Nat} (h : n % 100 = op) : wordAB op (modeAt 1 n) (modeAt 2 n) (n / 10000) = n :=
  h ▸ wordAB_fields n

theorem wf_modes (n : Nat) : ((modeAt 1 n).wf && (modeAt 2 n).wf) = true := by simp

theorem outWord_fields {n : Nat} (h : n % 100 = 4) : 4 + 100 * (modeAt 1 n).digit + 1000 * (n / 1000) = n := by
  rw [digit_modeAt]; norm_num; omega

/-- A number that decodes is the word of what it decodes to. -/
theorem word_of_decodeNat {n : Nat} {i : Instr} (h : decodeNat n = .ok i) : i.word = n ∧ i.wf = true := by
  obtain ⟨hm, hd⟩ | ⟨hm, hd⟩ | ⟨hm, hd⟩ | ⟨hm, hd⟩ | ⟨hm, hd⟩ | ⟨hm, hd⟩ | ⟨hm, hd⟩ | ⟨hm, hd⟩ | ⟨hm, hd⟩ | ⟨-, hd⟩ :=
    decodeNat_cases n
  all_goals rw [hd] at h; cases h
  · exact ⟨wordAB_of_mod hm, wf_modes n⟩
  · exact ⟨wordAB_of_mod hm, wf_modes n⟩
  · exact ⟨by simp only [Instr.word]; omega, rfl⟩
  · exact ⟨outWord_fields hm, wf_modeAt 1 n⟩
  · exact ⟨wordAB_of_mod hm, wf_modes n⟩
  · exact ⟨wordAB_of_mod hm, wf_modes n⟩
  · exact ⟨wordAB_of_mod hm, wf_modes n⟩
  · exact ⟨wordAB_of_mod hm, wf_modes n⟩
  · exact ⟨by simp only [Instr.word]; omega, rfl⟩

/-- The word fetched is the encoding of what it decodes to, so it is the raw word that faults record (R122). -/
theorem encode_of_decode {w : Int} {i : Instr} (h : decode w = .ok i) : encode i = w ∧ i.wf = true := by
  obtain ⟨n, rfl, hn⟩ := decode_ok_nat h
  obtain ⟨hword, hwf⟩ := word_of_decodeNat hn
  exact ⟨congrArg Nat.cast hword, hwf⟩

/-- Settles O1: a case for each constructor; the fields of its word are read back one by one. -/
theorem decodeAfterEncode : Obligations.DecodeAfterEncode := by
  unfold Obligations.DecodeAfterEncode
  exact fun _ => decode_encode

/-- Settles O2: a case for each row of the dispatch; a number is the sum of its own decimal fields. -/
theorem encodeAfterDecode : Obligations.EncodeAfterDecode := by
  unfold Obligations.EncodeAfterDecode
  exact fun _ _ => encode_of_decode

/-- The two modes a number decodes to are its hundreds and its thousands digit (R53, R54). -/
theorem decode_modes_of {mk : Mode → Mode → Nat → Instr} {n : Nat}
    (h : decodeNat n = .ok (mk (modeAt 1 n) (modeAt 2 n) (n / 10000))) :
    ∃ m1 m2 sp, decode n = .ok (mk m1 m2 sp) ∧ m1.digit = n / 100 % 10 ∧ m2.digit = n / 1000 % 10 :=
  ⟨_, _, _, (decode_ofNat n).trans h, digit_modeAt 1 n, digit_modeAt 2 n⟩

/-- Settles O3: each row of the dispatch, with the modes as digits; the words in no row are those of R57 and R58. -/
theorem opcodeAndModesAreDecimalDigits : Obligations.OpcodeAndModesAreDecimalDigits := by
  unfold Obligations.OpcodeAndModesAreDecimalDigits
  intro w
  refine ⟨fun h => decode_modes_of (decodeNat_add h), fun h => decode_modes_of (decodeNat_mul h), fun h => ?inp,
    fun h => ?out, fun h => decode_modes_of (decodeNat_jt h), fun h => decode_modes_of (decodeNat_jf h),
    fun h => decode_modes_of (decodeNat_lt h), fun h => decode_modes_of (decodeNat_eq h), fun h => ?halt,
    fun h i hi => ?unregistered, fun v hv i hi => ?negative⟩
  case inp => exact ⟨_, (decode_ofNat w).trans (decodeNat_inp h)⟩
  case out => exact ⟨_, _, (decode_ofNat w).trans (decodeNat_out h), digit_modeAt 1 w⟩
  case halt => exact ⟨_, (decode_ofNat w).trans (decodeNat_halt h)⟩
  case unregistered =>
    rw [decode_ofNat, decodeNat_unregistered h] at hi
    cases hi
  case negative =>
    rw [decode_neg hv] at hi
    cases hi

/-- The length of an instruction by its opcode (R55). -/
theorem length_of_opcode (i : Instr) :
    (i.opcode ∈ [1, 2, 7, 8] → i.length = 4) ∧ (i.opcode ∈ [3, 4] → i.length = 2) ∧
    (i.opcode ∈ [5, 6] → i.length = 3) ∧ (i.opcode = 99 → i.length = 1) := by
  cases i <;> simp [Instr.opcode, Instr.length]

/-- Settles O4: the opcode of what a word decodes to is the word's two low digits, and it fixes the length. -/
theorem lengthIsAFunctionOfTheOpcode : Obligations.LengthIsAFunctionOfTheOpcode := by
  unfold Obligations.LengthIsAFunctionOfTheOpcode
  refine ⟨fun w i h => ?length, by decide, by decide⟩
  case length =>
    rw [decode_opcode h]
    exact length_of_opcode i

/-- Settles O5: the words are the encodings of the instructions they stand for. -/
theorem canonicalWordsDecode : Obligations.CanonicalWordsDecode := by
  unfold Obligations.CanonicalWordsDecode
  exact ⟨rfl, rfl, rfl, rfl, rfl, rfl, rfl, rfl, rfl, rfl⟩

end Sys2Proof
end

section
/-! What an instruction can make of a state, all nine at once (R11, R14, R19, R20, R129), and what every step keeps. -/

namespace Sys2Proof.Machine

/-- The next states an instruction `i` can have from `s`: one write with the advance by 4, an IN that stores or holds, an
emission, a move of `pc` by a jump, a halt, or a fault taken. A value written or emitted is within the width wherever the
cells are. -/
inductive Effect (s : State) : Instr → State → Prop
  | writes {i : Instr} {d v : Int} (hi : storeOperand i = some 3) (hd : writeTarget 3 s = .ok d)
      (hv : s.cfg.wf = true → widthFits s.cfg.width v = true) : Effect s i ((s.writeCell d v).advance 4)
  | stores {sp : Nat} {d v : Int} (hd : writeTarget 1 s = .ok d) (hv : inputOffer s = some v) :
      Effect s (.inp sp) (((s.writeCell d v).consumeInput).advance 2)
  | holds {sp : Nat} {d : Int} (hd : writeTarget 1 s = .ok d) (hv : inputOffer s = none) : Effect s (.inp sp) s
  | emits {m : Mode} {sp : Nat} {v : Int} (hv : readOperand (encode (.out m sp)) m 1 s = .ok v) :
      Effect s (.out m sp) ((s.emit v).advance 2)
  | jumps {i : Instr} {a : Int} (hi : storeOperand i = none) : Effect s i (s.setPc a)
  | halts {sp : Nat} : Effect s (.halt sp) s.haltNow
  | faults {i : Instr} {f : FaultRecord} : Effect s i (s.takeFault f)

/-- A truth value fits every width of two bits or more, so a comparison cannot overflow (R95). -/
theorem widthFits_truthValue {c : Config} (hc : c.wf = true) (b : Bool) : widthFits c.width (truthValue b) = true := by
  obtain ⟨width, _⟩ := c
  cases width with
  | unbounded => rfl
  | bits n =>
    have hn : 2 ≤ n := of_decide_eq_true hc
    have hpow : (2 : Int) ^ 1 ≤ 2 ^ (n - 1) := pow_le_pow_right₀ (by decide) (by omega)
    have hb : 0 ≤ truthValue b ∧ truthValue b ≤ 1 := by cases b <;> decide
    exact decide_eq_true (by omega)

section
variable {s t : State} {i : Instr}

/-- Format F3 with any result that stays within the width. -/
theorem Effect.of_threeOperand {w : Int} {m1 m2 : Mode} {result : Int → Int → Except FaultRecord Int}
    (hi : storeOperand i = some 3)
    (hfit : ∀ {a b v}, result a b = .ok v → s.cfg.wf = true → widthFits s.cfg.width v = true)
    (h : settle s (threeOperand w m1 m2 result s) = .next t) : Effect s i t := by
  obtain ⟨_, _, _, _, -, -, hd, hv, rfl⟩ | ⟨_, rfl, -⟩ := settle_threeOperand_cases h
  · exact .writes hi hd (hfit hv)
  · exact .faults

theorem Effect.of_jumpIf {w : Int} {m1 m2 : Mode} {taken : Int → Bool} (hi : storeOperand i = none)
    (h : settle s (jumpIf w m1 m2 taken s) = .next t) : Effect s i t := by
  obtain ⟨_, _, -, -, rfl⟩ | ⟨_, rfl, -⟩ := settle_jumpIf_cases h
  · exact .jumps hi
  · exact .faults

theorem arithResult_ok {v r : Int} (h : arithResult v s = .ok r) : widthFits s.cfg.width r = true := by
  obtain ⟨hfit, hr⟩ | ⟨-, hr⟩ := arithResult_cases v s
  · cases hr.symm.trans h
    exact hfit
  · cases hr.symm.trans h

/-- Every instruction has one of the listed effects. -/
theorem exec_effect (h : exec i s = .next t) : Effect s i t := by
  cases i with
  | add m1 m2 sp => exact .of_threeOperand rfl (fun hr _ => arithResult_ok hr) (exec_add m1 m2 sp s ▸ h)
  | mul m1 m2 sp => exact .of_threeOperand rfl (fun hr _ => arithResult_ok hr) (exec_mul m1 m2 sp s ▸ h)
  | inp sp =>
    obtain ⟨_, _, hd, hv, rfl⟩ | ⟨_, hd, hv, rfl⟩ | ⟨_, -, rfl⟩ := exec_inp_cases h
    · exact .stores hd hv
    · exact .holds hd hv
    · exact .faults
  | out m1 sp =>
    obtain ⟨_, hv, rfl⟩ | ⟨_, -, rfl⟩ := exec_out_cases h
    · exact .emits hv
    · exact .faults
  | jt m1 m2 sp => exact .of_jumpIf rfl (exec_jt m1 m2 sp s ▸ h)
  | jf m1 m2 sp => exact .of_jumpIf rfl (exec_jf m1 m2 sp s ▸ h)
  | lt m1 m2 sp =>
    exact .of_threeOperand rfl (by rintro _ _ _ ⟨⟩ hc; exact widthFits_truthValue hc _) (exec_lt m1 m2 sp s ▸ h)
  | eq m1 m2 sp =>
    exact .of_threeOperand rfl (by rintro _ _ _ ⟨⟩ hc; exact widthFits_truthValue hc _) (exec_eq m1 m2 sp s ▸ h)
  | halt sp =>
    cases h
    exact .halts

/-- A step takes a fault of its fetch or dispatch, or has an effect of the instruction whose word it fetched. -/
theorem step_effect (h : step s = .next t) :
    (∃ f, fetchInstr s = .error f ∧ t = s.takeFault f) ∨
    ∃ (w : Nat) (i : Instr), cellAt s.tape s.pc = some (w : Int) ∧ decode w = .ok i ∧ Effect s i t := by
  obtain ⟨-, ⟨f, hf, rfl⟩ | ⟨i, hi, hexec⟩⟩ := step_cases h
  · exact .inl ⟨f, hf, rfl⟩
  · obtain ⟨_, hcell, hdecode⟩ := fetchInstr_ok_iff.mp hi
    obtain ⟨w, rfl, -⟩ := decode_ok_nat hdecode
    exact .inr ⟨w, i, hcell, hdecode, exec_effect hexec⟩

/-- The parameters and the supplied input are the host's: nothing changes them. -/
theorem Effect.host (h : Effect s i t) : t.input = s.input ∧ t.cfg = s.cfg := by
  cases h <;> exact ⟨rfl, rfl⟩

/-- The one cell that may change is the write target of the instruction (R11). -/
theorem Effect.tape (h : Effect s i t) :
    t.tape = s.tape ∨ ∃ k d v, storeOperand i = some k ∧ writeTarget k s = .ok d ∧ t.tape = setCell s.tape d v := by
  cases h with
  | writes hi hd _ => exact .inr ⟨3, _, _, hi, hd, rfl⟩
  | stores hd _ => exact .inr ⟨1, _, _, rfl, hd, rfl⟩
  | _ => exact .inl rfl

/-- Only OUT appends to the log, and what it appends is its operand (R20). -/
theorem Effect.out (h : Effect s i t) : t.out = s.out ∨
    ∃ m sp v, i = .out m sp ∧ readOperand (encode i) m 1 s = .ok v ∧ t.out = s.out ++ [v] := by
  cases h with
  | emits hv => exact .inr ⟨_, _, _, rfl, hv, rfl⟩
  | _ => exact .inl rfl

/-- Only IN moves the cursor (R19). -/
theorem Effect.inPos (h : Effect s i t) : t.inPos = s.inPos ∨
    ∃ sp d v, i = .inp sp ∧ writeTarget 1 s = .ok d ∧ inputOffer s = some v ∧
      t.inPos = s.inPos + 1 ∧ t.tape = setCell s.tape d v := by
  cases h with
  | stores hd hv => exact .inr ⟨_, _, _, rfl, hd, hv, rfl, rfl⟩
  | _ => exact .inl rfl

/-- `STATUS` and `FAULT` change only by HALT and by taking a fault (R16, R17). -/
theorem Effect.status_fault (h : Effect s i t) : (t.status = s.status ∧ t.fault = s.fault) ∨
    (∃ sp, i = .halt sp ∧ t = s.haltNow) ∨ ∃ f, t = s.takeFault f := by
  cases h with
  | halts => exact .inr (.inl ⟨_, rfl, rfl⟩)
  | faults => exact .inr (.inr ⟨_, rfl⟩)
  | _ => exact .inl ⟨rfl, rfl⟩

end

section
variable {s t : State}

/-- An integer that stands at the cursor leaves room to advance it (R19). -/
theorem inPos_lt_of_inputOffer {v : Int} (hv : inputOffer s = some v) : s.inPos < s.input.length := by
  obtain ⟨hget, -⟩ := inputOffer_some.mp hv
  exact (List.getElem?_eq_some_iff.mp hget).1

/-- Taking a fault fills `FAULT` with `STATUS` and changes nothing that the rest of the invariant speaks of. -/
theorem State.Inv.takeFault (hs : s.Inv) (f : FaultRecord) : (s.takeFault f).Inv where
  cfg_wf := hs.cfg_wf
  tape_wf := hs.tape_wf
  out_wf := hs.out_wf
  cursor_le := hs.cursor_le
  fault_iff := by simp
  halt_word := by rintro ⟨⟩

/-- An effect of the instruction at `pc` of a running machine keeps the invariant. -/
theorem Effect.inv {i : Instr} (hs : s.Inv) (hrun : s.status = .running) (hi : fetchInstr s = .ok i)
    (h : Effect s i t) : t.Inv := by
  have hhalt : s.status ≠ .halted := by simp [hrun]
  cases h with
  | writes _ _ hv =>
    exact ⟨hs.cfg_wf, wf_setCell hs.tape_wf (hv hs.cfg_wf), hs.out_wf, hs.cursor_le, hs.fault_iff, (absurd · hhalt)⟩
  | stores _ hv =>
    obtain ⟨-, hfit⟩ := inputOffer_some.mp hv
    exact ⟨hs.cfg_wf, wf_setCell hs.tape_wf hfit, hs.out_wf, inPos_lt_of_inputOffer hv, hs.fault_iff, (absurd · hhalt)⟩
  | holds => exact hs
  | @emits m sp v hv =>
    obtain ⟨_, hcell⟩ := readOperand_ok_mem hv
    have hout : (s.out ++ [v]).all (widthFits s.cfg.width) = true := by
      simpa using ⟨List.all_eq_true.mp hs.out_wf, wf_cellAt hs.tape_wf hcell⟩
    exact ⟨hs.cfg_wf, hs.tape_wf, hout, hs.cursor_le, hs.fault_iff, (absurd · hhalt)⟩
  | jumps => exact ⟨hs.cfg_wf, hs.tape_wf, hs.out_wf, hs.cursor_le, hs.fault_iff, (absurd · hhalt)⟩
  | halts =>
    have hnone : s.fault.isSome ≠ true := fun hsome => by cases hrun.symm.trans (hs.fault_iff.mpr hsome)
    exact ⟨hs.cfg_wf, hs.tape_wf, hs.out_wf, hs.cursor_le, by simpa using hnone, fun _ => ⟨_, hi⟩⟩
  | faults => exact hs.takeFault _

/-- Every step keeps the invariant. -/
theorem State.Inv.step (hs : s.Inv) (h : step s = .next t) : t.Inv := by
  obtain ⟨hrun, ⟨f, -, rfl⟩ | ⟨i, hi, hexec⟩⟩ := step_cases h
  · exact hs.takeFault f
  · exact (exec_effect hexec).inv hs hrun hi

/-- Settles O48: a fault of the fetch or dispatch fills `FAULT`, and every effect of an instruction keeps each part of the
invariant: a write and an emission stay in the range, and a halt leaves `pc` at the HALT it fetched. -/
theorem stepKeepsTheInvariant : Obligations.StepKeepsTheInvariant := by
  unfold Obligations.StepKeepsTheInvariant
  exact fun _ _ hs h => hs.step h

end

end Sys2Proof.Machine
end

section
/-! Frames: what an instruction and a step leave as it was, and what each change they make comes from (R11, R16, R19,
R20, R129, R133). -/

namespace Sys2Proof.Machine

section
variable {s t : State} {i : Instr}

theorem Effect.tape_length (h : Effect s i t) : t.tape.length = s.tape.length := by
  obtain htape | ⟨_, _, _, -, -, htape⟩ := h.tape
  · rw [htape]
  · rw [htape, setCell_length]

/-- An instruction with no write operand leaves the tape (R11). -/
theorem Effect.tape_of_none (h : Effect s i t) (hi : storeOperand i = none) : t.tape = s.tape := by
  obtain htape | ⟨_, _, _, hk, -, -⟩ := h.tape
  · exact htape
  · cases hi.symm.trans hk

/-- Every cell that is not the write target reads as before (R35). -/
theorem Effect.cellAt_other {k : Nat} (h : Effect s i t) (hi : storeOperand i = some k) {a : Int}
    (ha : ∀ d, writeTarget k s = .ok d → a ≠ d) : cellAt t.tape a = cellAt s.tape a := by
  obtain htape | ⟨_, d, v, hk, hd, htape⟩ := h.tape
  · rw [htape]
  · cases hi.symm.trans hk
    rw [htape, cellAt_setCell_other v (ha d hd)]

/-- An instruction with a write operand neither emits nor halts. -/
theorem not_out_or_halt_of_store {k : Nat} (hi : storeOperand i = some k) :
    (∀ m sp, i ≠ .out m sp) ∧ ∀ sp, i ≠ .halt sp := by
  constructor
  · rintro m sp rfl
    cases hi
  · rintro sp rfl
    cases hi

/-- An instruction without a write operand is no IN. -/
theorem not_inp_of_none (hi : storeOperand i = none) (sp : Nat) : i ≠ .inp sp := by
  rintro rfl
  cases hi

theorem Effect.out_same (h : Effect s i t) (hi : ∀ m sp, i ≠ .out m sp) : t.out = s.out := by
  obtain hout | ⟨m, sp, _, rfl, -, -⟩ := h.out
  · exact hout
  · exact absurd rfl (hi m sp)

theorem Effect.inPos_same (h : Effect s i t) (hi : ∀ sp, i ≠ .inp sp) : t.inPos = s.inPos := by
  obtain hpos | ⟨sp, _, _, rfl, -⟩ := h.inPos
  · exact hpos
  · exact absurd rfl (hi sp)

/-- A next state in `FAULTED` is an old one, or the entry of a fault (R129). -/
theorem Effect.faulted (h : Effect s i t) (ht : t.status = .faulted) :
    s.status = .faulted ∨ ∃ f, t = s.takeFault f := by
  obtain ⟨hstatus, -⟩ | ⟨_, -, rfl⟩ | hfault := h.status_fault
  · exact .inl (hstatus ▸ ht)
  · cases ht
  · exact .inr hfault

/-- A next state in `HALTED` is an old one, or a HALT has executed (R16). -/
theorem Effect.halted (h : Effect s i t) (ht : t.status = .halted) :
    s.status = .halted ∨ ∃ sp, i = .halt sp := by
  obtain ⟨hstatus, -⟩ | ⟨sp, hi, -⟩ | ⟨_, rfl⟩ := h.status_fault
  · exact .inl (hstatus ▸ ht)
  · exact .inr ⟨sp, hi⟩
  · cases ht

/-- Every instruction answers a next state: all but HALT end in `settle`, which always does. -/
theorem exec_next (i : Instr) (s : State) : ∃ t, exec i s = .next t := by
  cases i with
  | halt sp => exact ⟨_, exec_halt sp s⟩
  | _ => exact settle_next s _

end

/-- Settles O26: the one effect list restricted to the instructions with a write operand. -/
theorem storingInstructionsFrame : Obligations.StoringInstructionsFrame := by
  unfold Obligations.StoringInstructionsFrame
  intro i k s t hi hexec
  have h := exec_effect hexec
  obtain ⟨hout, hhalt⟩ := not_out_or_halt_of_store hi
  obtain ⟨hinput, hcfg⟩ := h.host
  refine ⟨h.tape_length, fun _ => h.cellAt_other hi, h.out_same hout, hinput, hcfg, h.inPos_same, ?status⟩
  case status =>
    obtain hsame | ⟨sp, rfl, -⟩ | hfault := h.status_fault
    · exact .inl hsame
    · exact absurd rfl (hhalt sp)
    · exact .inr hfault

/-- Settles O27: the one effect list restricted to the instructions without a write operand. -/
theorem nonStoringInstructionsFrame : Obligations.NonStoringInstructionsFrame := by
  unfold Obligations.NonStoringInstructionsFrame
  intro i s t hi hexec
  have h := exec_effect hexec
  have htape := h.tape_of_none hi
  obtain ⟨hinput, hcfg⟩ := h.host
  refine ⟨htape, fun a => by rw [htape], h.inPos_same (not_inp_of_none hi), hinput, hcfg, h.out_same, ?halt, ?status⟩
  case halt =>
    rintro ⟨sp, rfl⟩
    rw [exec_halt] at hexec
    cases hexec
    exact ⟨rfl, rfl⟩
  case status =>
    exact h.status_fault.imp_right (.imp_left fun ⟨sp, hsp, _⟩ => ⟨sp, hsp⟩)

/-- Settles O28: `settle` answers a next state for every result, and a new `FAULTED` is a fault's entry. -/
theorem everyInstructionAnswersANextState : Obligations.EveryInstructionAnswersANextState := by
  unfold Obligations.EveryInstructionAnswersANextState
  intro i s
  obtain ⟨t, ht⟩ := exec_next i s
  exact ⟨t, ht, (exec_effect ht).faulted⟩

section
variable {s t : State}

/-- A step that ends in `FAULTED` is the entry of a fault (R129). -/
theorem step_faulted (h : step s = .next t) (ht : t.status = .faulted) : ∃ f, t = s.takeFault f := by
  obtain ⟨hrun, ⟨f, -, rfl⟩ | ⟨i, -, hexec⟩⟩ := step_cases h
  · exact ⟨f, rfl⟩
  · exact ((exec_effect hexec).faulted ht).resolve_left (by simp [hrun])

/-- A step fills `FAULT` only when it ends in `FAULTED` (R17). -/
theorem status_of_fault_filled (h : step s = .next t) (hs : s.fault = none) (ht : t.fault ≠ none) :
    t.status = .faulted := by
  obtain ⟨f, -, rfl⟩ | ⟨_, i, -, -, heffect⟩ := step_effect h
  · rfl
  · obtain ⟨-, hfault⟩ | ⟨_, -, rfl⟩ | ⟨_, rfl⟩ := heffect.status_fault
    · exact absurd (hfault.trans hs) ht
    · exact absurd hs ht
    · rfl

end

/-- Settles O32: fault entry writes `STATUS` and `FAULT` alone. -/
theorem faultEntryIsPrecise : Obligations.FaultEntryIsPrecise := by
  unfold Obligations.FaultEntryIsPrecise
  intro s t h ht
  obtain ⟨f, rfl⟩ := step_faulted h ht
  exact ⟨f, rfl, rfl, rfl, rfl, rfl⟩

theorem operandFault_kind {w : Int} {k : Nat} {s : State} {f : FaultRecord} (h : operandFault w k s f) :
    f ≠ .configurationFault ∧ (s.cfg.width = .unbounded → ∀ p, f ≠ .arithmeticOverflow p) := by
  obtain rfl | rfl | ⟨-, _, -, rfl⟩ := h <;> exact ⟨nofun, fun _ => nofun⟩

theorem targetFault_kind {k : Nat} {s : State} {f : FaultRecord} (h : targetFault k s f) :
    f ≠ .configurationFault ∧ (s.cfg.width = .unbounded → ∀ p, f ≠ .arithmeticOverflow p) := by
  obtain rfl | ⟨_, -, -, rfl⟩ := h <;> exact ⟨nofun, fun _ => nofun⟩

/-- No row of the cross-table holds `ConfigurationFault`, and only a finite width `ArithmeticOverflow` (R133). -/
theorem faultAllowed_kind {i : Instr} {s : State} {f : FaultRecord} (h : faultAllowed i s f) :
    f ≠ .configurationFault ∧ (s.cfg.width = .unbounded → ∀ p, f ≠ .arithmeticOverflow p) := by
  cases i with
  | add | mul =>
    obtain h1 | h2 | h3 | ⟨hw, rfl⟩ := h
    · exact operandFault_kind h1
    · exact operandFault_kind h2
    · exact targetFault_kind h3
    · exact ⟨nofun, fun hunbounded => absurd hunbounded hw⟩
  | lt | eq =>
    obtain h1 | h2 | h3 := h
    · exact operandFault_kind h1
    · exact operandFault_kind h2
    · exact targetFault_kind h3
  | jt | jf =>
    obtain h1 | h2 := h
    · exact operandFault_kind h1
    · exact operandFault_kind h2
  | out => exact operandFault_kind h
  | inp => exact targetFault_kind h
  | halt => exact h.elim

/-- The fault a step takes is of a kind that can occur under the width (R124, R126). -/
theorem step_fault_kind {s t : State} {f : FaultRecord} (h : step s = .next t) (hs : s.fault = none)
    (hf : t.fault = some f) :
    f ≠ .configurationFault ∧ (s.cfg.width = .unbounded → ∀ p, f ≠ .arithmeticOverflow p) := by
  have ht := status_of_fault_filled h hs (by simp [hf])
  obtain ⟨g, hg, hrow⟩ := faultsFollowTheCrossTable s t h ht
  cases hf.symm.trans hg
  obtain ⟨-, rfl⟩ | ⟨_, _, -, -, rfl⟩ | ⟨_, i, -, -, hallowed⟩ := hrow
  · exact ⟨nofun, fun _ => nofun⟩
  · exact ⟨nofun, fun _ => nofun⟩
  · exact faultAllowed_kind hallowed

/-- Settles O34: the record a step fills in stands in the cross-table, which holds no such kind. -/
theorem unreachableFaultKinds : Obligations.UnreachableFaultKinds := by
  unfold Obligations.UnreachableFaultKinds
  intro s t hs h
  exact ⟨fun hf => (step_fault_kind h hs hf).1 rfl, fun hw p hf => (step_fault_kind h hs hf).2 hw p rfl⟩

/-- The opcodes of the instructions with a write operand, and the operand's number for each (R65). -/
theorem opcode_of_storeOperand {i : Instr} {k : Nat} (h : storeOperand i = some k) :
    i.opcode ∈ [1, 2, 3, 7, 8] ∧ (i.opcode ∈ [1, 2, 7, 8] → k = 3) ∧ (i.opcode = 3 → k = 1) := by
  cases i <;> cases h <;> simp [Instr.opcode]

/-- Settles O37: the effect that changes the tape writes the write target, whose operand number the opcode fixes. -/
theorem atMostOneCellPerStep : Obligations.AtMostOneCellPerStep := by
  unfold Obligations.AtMostOneCellPerStep
  intro s t h
  obtain ⟨_, -, rfl⟩ | ⟨w, i, hcell, hdecode, heffect⟩ := step_effect h
  · exact .inl rfl
  obtain htape | ⟨k, d, v, hk, hd, htape⟩ := heffect.tape
  · exact .inl htape
  obtain ⟨-, hb⟩ := writeTarget_ok_iff.mp hd
  have hread : cellAt t.tape d = some v := by rw [htape, cellAt_setCell_same v hb]
  have hother : ∀ a, a ≠ d → cellAt t.tape a = cellAt s.tape a := fun a ha => by
    rw [htape, cellAt_setCell_other v ha]
  obtain ⟨hop, hthree, hone⟩ := opcode_of_storeOperand hk
  rw [← decode_opcode hdecode] at hop hthree hone
  exact .inr ⟨w, d, v, hcell, hop, fun h => hthree h ▸ hd, fun h => hone h ▸ hd, hb, htape, hread, hother⟩

/-- Settles O38: the effect that changes the log is OUT's, and the word fetched is the encoding of that OUT. -/
theorem onlyOutAppendsToTheLog : Obligations.OnlyOutAppendsToTheLog := by
  unfold Obligations.OnlyOutAppendsToTheLog
  intro s t h
  obtain ⟨_, -, rfl⟩ | ⟨w, i, hcell, hdecode, heffect⟩ := step_effect h
  · exact .inl rfl
  refine heffect.out.imp_right ?_
  rintro ⟨m, sp, v, rfl, hv, hout⟩
  have hmode : m = modeAt 1 w := by simpa [Instr.modes] using decode_modes hdecode
  rw [(encode_of_decode hdecode).1, hmode] at hv
  exact ⟨w, v, hcell, decode_opcode hdecode, hv, hout⟩

/-- Settles O39: the effect that moves the cursor is IN's, which stores the integer the port offers. -/
theorem onlyInConsumesInput : Obligations.OnlyInConsumesInput := by
  unfold Obligations.OnlyInConsumesInput
  intro s t h
  obtain ⟨_, -, rfl⟩ | ⟨w, i, hcell, hdecode, heffect⟩ := step_effect h
  · exact .inl rfl
  refine heffect.inPos.imp_right ?_
  rintro ⟨sp, d, v, rfl, hd, hv, hpos, htape⟩
  obtain ⟨-, hb⟩ := writeTarget_ok_iff.mp hd
  obtain ⟨hget, -⟩ := inputOffer_some.mp hv
  exact ⟨w, d, v, hcell, decode_opcode hdecode, hpos, hget, hd, by rw [htape, cellAt_setCell_same v hb]⟩

/-- A fetch and a dispatch that succeed hand over to the instruction (R105). -/
theorem step_of_fetchInstr_ok {s : State} {i : Instr} (hr : s.status = .running) (hi : fetchInstr s = .ok i) :
    step s = exec i s := by
  rw [step_running hr, hi]

/-- A step ends in `HALTED` exactly when the word at `pc` decodes to a HALT (R16). -/
theorem step_halted_iff {s t : State} (h : step s = .next t) :
    t.status = .halted ↔ ∃ sp, fetchInstr s = .ok (.halt sp) := by
  obtain ⟨hrun, hstep⟩ := step_cases h
  constructor
  · intro ht
    obtain ⟨_, -, rfl⟩ | ⟨i, hi, hexec⟩ := hstep
    · cases ht
    · obtain ⟨sp, rfl⟩ := ((exec_effect hexec).halted ht).resolve_left (by simp [hrun])
      exact ⟨sp, hi⟩
  · rintro ⟨sp, hi⟩
    rw [step_of_fetchInstr_ok hrun hi, exec_halt] at h
    cases h
    rfl

/-- The words that decode to a HALT (R65, R60). -/
theorem decode_halt_iff {w : Int} : (∃ sp, decode w = .ok (.halt sp)) ↔ 0 ≤ w ∧ w % 100 = 99 := by
  constructor
  · rintro ⟨sp, h⟩
    obtain ⟨n, rfl, -⟩ := decode_ok_nat h
    have hop : n % 100 = 99 := decode_opcode h
    omega
  · rintro ⟨h0, hmod⟩
    obtain ⟨n, rfl⟩ := Int.eq_ofNat_of_zero_le h0
    exact ⟨_, (decode_ofNat n).trans (decodeNat_halt (by omega))⟩

theorem fetchInstr_halt_iff {s : State} : (∃ sp, fetchInstr s = .ok (.halt sp)) ↔
    ∃ w, cellAt s.tape s.pc = some w ∧ 0 ≤ w ∧ w % 100 = 99 := by
  simp only [fetchInstr_ok_iff, ← decode_halt_iff]
  exact ⟨fun ⟨sp, w, hcell, hd⟩ => ⟨w, hcell, sp, hd⟩, fun ⟨w, hcell, sp, hd⟩ => ⟨sp, w, hcell, hd⟩⟩

theorem shouldProgramContinue_eq_false {s : State} :
    s.shouldProgramContinue = false ↔ s.status = .halted ∨ s.status = .faulted := by
  rw [State.shouldProgramContinue, decide_eq_false_iff_not]
  cases s.status <;> decide

/-- Settles O36: only HALT's effect sets `HALTED`, and the words of HALT are those of opcode 99. -/
theorem haltedExactlyByHalt : Obligations.HaltedExactlyByHalt := by
  unfold Obligations.HaltedExactlyByHalt
  intro s t h
  exact ⟨(step_halted_iff h).trans fetchInstr_halt_iff, shouldProgramContinue_eq_false, decide_eq_true (step_cases h).1⟩

end Sys2Proof.Machine
end

section
/-! The operand resolver and the checked access of the tape, case by case (R31, R35, R38, R71, R73, R75). -/

namespace Sys2Proof

section
variable {k w : Nat}

theorem modeAt_position (h : w / 10 ^ (k + 1) % 10 = 0) : modeAt k w = .position := congrArg Mode.ofDigit h

theorem modeAt_immediate (h : w / 10 ^ (k + 1) % 10 = 1) : modeAt k w = .immediate := congrArg Mode.ofDigit h

/-- A mode digit 2 to 9 selects no mode (R59). -/
theorem modeAt_illegal (h0 : w / 10 ^ (k + 1) % 10 ≠ 0) (h1 : w / 10 ^ (k + 1) % 10 ≠ 1) :
    ∃ d, modeAt k w = .illegal d := by
  obtain ⟨d, hd⟩ := Nat.exists_eq_add_of_le' (show 2 ≤ w / 10 ^ (k + 1) % 10 by omega)
  exact ⟨d + 2, congrArg Mode.ofDigit hd⟩

theorem modeAt_legal (h : w / 10 ^ (k + 1) % 10 ≤ 1) : (modeAt k w).legal = true := by
  obtain h0 | h1 : w / 10 ^ (k + 1) % 10 = 0 ∨ w / 10 ^ (k + 1) % 10 = 1 := by omega
  · rw [modeAt_position h0]; rfl
  · rw [modeAt_immediate h1]; rfl

end

namespace Machine

section
variable {w : Int} {k : Nat} {s : State} {p v : Int}

/-- An operand cell outside the tape is absent, in either mode (R71). -/
theorem readOperand_absent {m : Mode} (hm : m.legal = true) (h : cellAt s.tape (s.pc + k) = none) :
    readOperand w m k s = .error (.malformedOperand s.pc k) := by
  obtain rfl | rfl := Mode_legal_cases hm <;> simp [readOperand, h]

theorem readOperand_immediate (h : cellAt s.tape (s.pc + k) = some p) : readOperand w .immediate k s = .ok p := by
  simp [readOperand, h]

theorem readOperand_position (h : cellAt s.tape (s.pc + k) = some p) (hv : cellAt s.tape p = some v) :
    readOperand w .position k s = .ok v := by
  simp [readOperand, h, hv]

/-- A pointer outside the tape is reported under the name that `POS_TARGET_FAULT` gives (R71, D6). -/
theorem readOperand_position_outside (h : cellAt s.tape (s.pc + k) = some p) (hp : cellAt s.tape p = none) :
    readOperand w .position k s = .error (posTargetFault p k s) := by
  simp [readOperand, h, hp]

theorem posTargetFault_eq (p : Int) (k : Nat) (s : State) : posTargetFault p k s =
    if s.cfg.posTargetFault = .malformedOperand then .malformedOperand s.pc k else .outOfBounds p := by
  unfold posTargetFault
  cases s.cfg.posTargetFault <;> rfl

theorem writeTarget_absent (h : cellAt s.tape (s.pc + k) = none) :
    writeTarget k s = .error (.outOfBounds (s.pc + k)) := by
  simp [writeTarget, h]

theorem writeTarget_outside (h : cellAt s.tape (s.pc + k) = some p) (hp : ¬ InBounds s.tape p) :
    writeTarget k s = .error (.outOfBounds p) := by
  simp only [writeTarget, h]
  rw [if_neg hp]

end

/-- Settles O9: the mode the digit selects, then one equation of the resolver for each outcome. -/
theorem readOperandFollowsTheModeDigit : Obligations.ReadOperandFollowsTheModeDigit := by
  unfold Obligations.ReadOperandFollowsTheModeDigit
  intro s w k
  refine ⟨fun h0 h1 => ?illegal, fun hle hb => ?absent, fun p h1 hp => ?immediate, fun p v h0 hp hv => ?position,
    fun p h0 hp hb => ?outside⟩
  case illegal =>
    obtain ⟨d, hd⟩ := modeAt_illegal h0 h1
    rw [hd]
    rfl
  case absent => exact readOperand_absent (modeAt_legal hle) (cellAt_neg hb)
  case immediate => rw [modeAt_immediate h1, readOperand_immediate hp]
  case position => rw [modeAt_position h0, readOperand_position hp hv]
  case outside => rw [modeAt_position h0, readOperand_position_outside hp (cellAt_neg hb), posTargetFault_eq]

/-- Settles O10: one equation of the write target for each outcome. -/
theorem writeTargetIsTheRawCell : Obligations.WriteTargetIsTheRawCell := by
  unfold Obligations.WriteTargetIsTheRawCell
  exact fun s k => ⟨fun hb => writeTarget_absent (cellAt_neg hb), fun d hd hb => writeTarget_ok_iff.mpr ⟨hd, hb⟩,
    fun d hd hb => writeTarget_outside hd hb⟩

section
variable {x : Tape} {q : Int} {k w : Nat}

theorem probeOperand_immediate (hq : cellAt x q = some (w : Int)) (hm : modeAt k w = .immediate) :
    probeOperand x q k = cellAt x (q + k) := by
  have hw : ¬ (w : Int) < 0 := by omega
  simp [probeOperand, hq, hw, hm]

theorem probeOperand_position (hq : cellAt x q = some (w : Int)) (hm : modeAt k w = .position) :
    probeOperand x q k = (cellAt x (q + k)).bind (cellAt x) := by
  have hw : ¬ (w : Int) < 0 := by omega
  cases hp : cellAt x (q + k) <;> simp [probeOperand, hq, hw, hm, hp]

end

section
variable {s : State} {w k : Nat} (hcell : cellAt s.tape s.pc = some (w : Int)) (hm : (modeAt k w).legal = true)
include hcell hm

/-- Where the probe finds a value the strict read answers it (R75). -/
theorem readOperand_of_probe {v : Int} (hv : probeOperand s.tape s.pc k = some v) :
    readOperand w (modeAt k w) k s = .ok v := by
  obtain hmode | hmode := Mode_legal_cases hm
  · rw [probeOperand_position hcell hmode] at hv
    obtain ⟨p, hp, hv⟩ := Option.bind_eq_some_iff.mp hv
    rw [hmode, readOperand_position hp hv]
  · rw [probeOperand_immediate hcell hmode] at hv
    rw [hmode, readOperand_immediate hv]

/-- Where the probe is absent the strict read is a fault: of the operand cell, or of the pointer (R71, R75). -/
theorem readOperand_of_probe_absent (hv : probeOperand s.tape s.pc k = none) :
    readOperand w (modeAt k w) k s = .error (.malformedOperand s.pc k) ∨
      ∃ p, readOperand w (modeAt k w) k s = .error (posTargetFault p k s) := by
  obtain hmode | hmode := Mode_legal_cases hm
  · rw [probeOperand_position hcell hmode] at hv
    cases hp : cellAt s.tape (s.pc + k) with
    | none => exact .inl (readOperand_absent hm hp)
    | some p =>
      rw [hp, Option.bind_some] at hv
      exact .inr ⟨p, by rw [hmode, readOperand_position_outside hp hv]⟩
  · rw [probeOperand_immediate hcell hmode] at hv
    exact .inl (readOperand_absent hm hv)

end

/-- Settles O11: the strict read answers what the probe finds, and is a fault where the probe is absent. -/
theorem strictOperandIsTheProbeUnwrapped : Obligations.StrictOperandIsTheProbeUnwrapped := by
  unfold Obligations.StrictOperandIsTheProbeUnwrapped
  intro s w k hcell hm
  refine ⟨fun v hv => readOperand_of_probe hcell hm hv, fun hv hname => ?named, fun hv v hread => ?noValue⟩
  case named =>
    obtain hf | ⟨p, hf⟩ := readOperand_of_probe_absent hcell hm hv
    · exact hf
    · rw [hf, posTargetFault_eq, if_pos hname]
  case noValue =>
    obtain hf | ⟨p, hf⟩ := readOperand_of_probe_absent hcell hm hv <;> cases hf.symm.trans hread

section
variable {s : State} {a v : Int}

theorem memRead_of_cellAt (h : cellAt s.tape a = some v) : memRead a s = .ok v := by simp [memRead, h]

theorem memRead_outside (h : ¬ InBounds s.tape a) : memRead a s = .error (.outOfBounds a) := by
  simp [memRead, cellAt_neg h]

theorem memWrite_inside (v : Int) (h : InBounds s.tape a) : memWrite a v s = .ok (s.writeCell a v) := if_pos h

theorem memWrite_outside (v : Int) (h : ¬ InBounds s.tape a) : memWrite a v s = .error (.outOfBounds a) := if_neg h

end

/-- Settles O12: the checked access is the plain one inside the tape; the rules of one cell write give the rest. -/
theorem checkedAccessReadsWhatWasWritten : Obligations.CheckedAccessReadsWhatWasWritten := by
  unfold Obligations.CheckedAccessReadsWhatWasWritten
  refine fun s a v => ⟨fun hb => ⟨?read, s.writeCell a v, memWrite_inside v hb, ?readBack, setCell_length .., ?others, rfl⟩,
    fun hb => ⟨memRead_outside hb, memWrite_outside v hb⟩⟩
  case read =>
    obtain ⟨u, hu⟩ := cellAt_of_inBounds hb
    exact ⟨u, memRead_of_cellAt hu⟩
  case readBack => exact memRead_of_cellAt (cellAt_setCell_same v hb)
  case others => exact fun b hne => cellAt_setCell_other v hne

/-- Settles O13: both clauses are the definition's own. -/
theorem cellRangeOfTheWidth : Obligations.CellRangeOfTheWidth := by
  unfold Obligations.CellRangeOfTheWidth
  exact fun v => ⟨rfl, fun n => decide_eq_true_iff⟩

end Machine

end Sys2Proof
end

section
/-! Fetch, dispatch and the end of a step, and IN and the jumps as steps (R86, R92, R93, R103 to R106). -/

namespace Sys2Proof.Machine

/-- Settles O7: a negative word decodes to no instruction, so the dispatch faults. -/
theorem negativeWordFaultsAtDispatch : Obligations.NegativeWordFaultsAtDispatch := by
  unfold Obligations.NegativeWordFaultsAtDispatch
  exact fun s w hr hc hw => step_of_decode_error hr hc (decode_neg hw)

/-- Settles O29: the step of a running machine adds nothing to the execution. -/
theorem stepRunsTheDecodedInstruction : Obligations.StepRunsTheDecodedInstruction := by
  unfold Obligations.StepRunsTheDecodedInstruction
  exact fun s w i hr hc hd => step_of_decode_ok hr hc hd

/-- A fetch outside the tape faults with the address (R103). -/
theorem step_outside {s : State} (hr : s.status = .running) (hb : ¬ InBounds s.tape s.pc) :
    step s = .next (s.takeFault (.outOfBounds s.pc)) :=
  step_of_fetchInstr_error hr (fetchInstr_outside hb)

/-- A tape of no cells has no address in bounds. -/
theorem not_inBounds_nil (a : Int) : ¬ InBounds [] a := by
  rintro ⟨h0, h1⟩
  simp only [List.length_nil] at h1
  omega

/-- Settles O30: the fetch faults, and on a tape of no cells it always does. -/
theorem fetchOutsideTheTapeFaults : Obligations.FetchOutsideTheTapeFaults := by
  unfold Obligations.FetchOutsideTheTapeFaults
  rintro s hr (hb | hnil)
  · exact step_outside hr hb
  · exact step_outside hr (hnil ▸ not_inBounds_nil s.pc)

theorem step_halted {s : State} (h : s.status = .halted) : step s = .fault .noStepAfterHalt := by simp [step, h]

theorem step_of_faulted {s : State} (h : s.status = .faulted) : step s = .fault .noStepAfterFault := by simp [step, h]

/-- A running machine always has a next state: a fault is one too (R129). -/
theorem step_next {s : State} (h : s.status = .running) : ∃ t, step s = .next t := by
  rw [step_running h]
  cases fetchInstr s with
  | error f => exact ⟨s.takeFault f, rfl⟩
  | ok i => exact exec_next i s

/-- Settles O31: a clause for each value of `STATUS`. -/
theorem noStepInATerminalState : Obligations.NoStepInATerminalState := by
  unfold Obligations.NoStepInATerminalState
  exact fun s => ⟨step_halted, step_of_faulted, step_next⟩

/-- Settles O16: IN stores what the port offers, or takes the fault of its target; the worked example is a step to the
store of 77 in cell 3. -/
theorem inStoresTheNextInput : Obligations.InStoresTheNextInput := by
  unfold Obligations.InStoresTheNextInput
  refine ⟨fun sp s => ⟨(Laws.WordFields.inp sp).encode_emod, fun d v hd hget hfit => ?stores, fun f hf => ?faults⟩, rfl, rfl,
    ?workedExample⟩
  case stores => exact exec_inp_stores sp hd (inputOffer_some.mpr ⟨hget, hfit⟩)
  case faults => exact ⟨writeTarget_error hf, exec_inp_faults sp hf⟩
  case workedExample =>
    rintro ⟨_, _, _, _, _, _, _, _⟩ rfl rfl rfl rfl rfl hw
    rw [step_of_decode_ok (w := 3) (i := .inp 0) rfl rfl rfl]
    exact exec_inp_stores (d := 3) (v := 77) 0 rfl (inputOffer_some.mpr ⟨rfl, by rw [hw]; rfl⟩)

theorem inputOffer_none {s : State} (h : s.input[s.inPos]? = none) : inputOffer s = none := by simp [inputOffer, h]

/-- A machine that runs at an IN with its target in order and no integer to read is held (R86). -/
theorem held_of_inp {s : State} {sp : Nat} {d : Int} (hr : s.status = .running) (hi : fetchInstr s = .ok (.inp sp))
    (hd : writeTarget 1 s = .ok d) (hv : inputOffer s = none) : s.held = true := by
  simp [State.held, hr, hi, hd, hv]

/-- What the input port lets in fits the width and stands behind the integers already there (R19, R84). -/
theorem supply_some {s t : State} {v : Int} (h : s.supply v = some t) :
    widthFits s.cfg.width v = true ∧ t = { s with input := s.input ++ [v] } := by
  unfold State.supply at h
  split at h
  · next hfit => cases h; exact ⟨hfit, rfl⟩
  · cases h

/-- Settles O25: with nothing offered IN is the identity; the supplied integer stands at the cursor, where IN finds it. -/
theorem inWaitsUntilTheHostSupplies : Obligations.InWaitsUntilTheHostSupplies := by
  unfold Obligations.InWaitsUntilTheHostSupplies
  intro sp s d hd hnone
  have hoffer := inputOffer_none hnone
  refine ⟨exec_inp_holds sp hd hoffer, fun hr hi => ⟨held_of_inp hr hi hd hoffer, ?step⟩, fun v t hend hsupply => ?lifted⟩
  case step => rw [step_of_fetchInstr_ok hr hi, exec_inp_holds sp hd hoffer]
  case lifted =>
    obtain ⟨hfit, rfl⟩ := supply_some hsupply
    have hget : (s.input ++ [v])[s.inPos]? = some v := by rw [hend]; simp
    exact exec_inp_stores sp ((writeTarget_congr 1 rfl rfl).trans hd) (inputOffer_some.mpr ⟨hget, hfit⟩)

/-- Settles O23: a jump resolves its target operand before it tests the condition; on the example tape the pointer 100
is outside. -/
theorem jumpNeedsItsTargetOperand : Obligations.JumpNeedsItsTargetOperand := by
  unfold Obligations.JumpNeedsItsTargetOperand
  refine ⟨fun m1 m2 sp s c f => ⟨fun h1 h2 => settle_jumpIf_error_two h1 h2, fun h1 h2 => settle_jumpIf_error_two h1 h2⟩,
    ?exampleTape⟩
  case exampleTape =>
    rintro ⟨_, _, _, _, _, _, _, _⟩ rfl rfl rfl hname
    rw [step_of_decode_ok (w := 105) (i := .jt .immediate .position 0) rfl rfl rfl, exec_jt]
    refine (settle_jumpIf_error_two (c := 0) rfl ?_).2
    rw [readOperand_position_outside (p := 100) rfl rfl, posTargetFault_eq, if_pos hname]

/-- A jump to a target outside the tape completes, and the step after it takes the fault of its fetch (R92). -/
theorem step_setPc_outside {s : State} {t : Int} (hr : s.status = .running) (hb : ¬ InBounds s.tape t) :
    step (s.setPc t) = .next ((s.setPc t).takeFault (.outOfBounds t)) :=
  step_outside (s := s.setPc t) hr hb

/-- Settles O24: a taken jump is the update of `pc` alone, and the next fetch checks it. -/
theorem jumpTargetIsCheckedByTheNextFetch : Obligations.JumpTargetIsCheckedByTheNextFetch := by
  unfold Obligations.JumpTargetIsCheckedByTheNextFetch
  refine fun m1 m2 sp s c t => ⟨fun h1 h2 hc => ⟨s.setPc t, ?jt, rfl, step_setPc_outside⟩,
    fun h1 h2 hc => ⟨s.setPc t, ?jf, rfl, step_setPc_outside⟩⟩
  case jt => exact settle_jumpIf_taken h1 h2 (conditionHolds_eq_true.mpr hc)
  case jf => exact settle_jumpIf_taken h1 h2 (by simp [hc])

/-- Settles O40: the written cell is the one `pc` then names, and a fetch reads the cell (R40). -/
theorem nextFetchSeesTheWrite : Obligations.NextFetchSeesTheWrite := by
  unfold Obligations.NextFetchSeesTheWrite
  refine ⟨fun m1 m2 sp s a b h1 h2 hd hfit => ⟨_, settle_threeOperand_writes h1 h2 hd (arithResult_fits hfit), ?add⟩,
    fun sp s v hd hv => ⟨_, exec_inp_stores sp hd hv, ?inp⟩⟩
  case add => exact memRead_of_cellAt (cellAt_setCell_same _ (writeTarget_ok_iff.mp hd).2)
  case inp => exact memRead_of_cellAt (cellAt_setCell_same _ (writeTarget_ok_iff.mp hd).2)

section
variable {s t : State} {w : Int} {m1 m2 : Mode} (ht : t.status ≠ .faulted)
include ht

theorem pc_of_threeOperand {result : Int → Int → Except FaultRecord Int}
    (h : settle s (threeOperand w m1 m2 result s) = .next t) : t.pc = s.pc + 4 := by
  obtain ⟨_, _, _, _, -, -, -, -, rfl⟩ | ⟨_, rfl, -⟩ := settle_threeOperand_cases h
  · rfl
  · exact absurd rfl ht

theorem pc_of_jumpIf {taken : Int → Bool} (h : settle s (jumpIf w m1 m2 taken s) = .next t) :
    ∃ c a, readOperand w m1 1 s = .ok c ∧ readOperand w m2 2 s = .ok a ∧ t.pc = if taken c then a else s.pc + 3 := by
  obtain ⟨c, a, h1, h2, rfl⟩ | ⟨_, rfl, -⟩ := settle_jumpIf_cases h
  · exact ⟨c, a, h1, h2, rfl⟩
  · exact absurd rfl ht

theorem pc_of_out {sp : Nat} (h : exec (.out m1 sp) s = .next t) : t.pc = s.pc + 2 := by
  obtain ⟨_, -, rfl⟩ | ⟨_, -, rfl⟩ := exec_out_cases h
  · rfl
  · exact absurd rfl ht

theorem pc_of_inp {sp : Nat} (hr : s.status = .running) (hi : fetchInstr s = .ok (.inp sp))
    (h : exec (.inp sp) s = .next t) : t.pc = s.pc + 2 ∨ (s.held = true ∧ t = s) := by
  obtain ⟨_, _, -, -, rfl⟩ | ⟨_, hd, hv, rfl⟩ | ⟨_, -, rfl⟩ := exec_inp_cases h
  · exact .inl rfl
  · exact .inr ⟨held_of_inp hr hi hd hv, rfl⟩
  · exact absurd rfl ht

end

/-- Settles O35: the opcode of the word fetched fixes the instruction that the step executes, and each instruction has one
way to leave `pc`. -/
theorem pointerAfterEachInstruction : Obligations.PointerAfterEachInstruction := by
  unfold Obligations.PointerAfterEachInstruction
  intro s t w hcell h
  have hr := (step_cases h).1
  have hdecode {i : Instr} (hd : decodeNat w = .ok i) : decode (w : Int) = .ok i := (decode_ofNat w).trans hd
  have hexec {i : Instr} (hd : decodeNat w = .ok i) : exec i s = .next t :=
    (step_of_decode_ok hr hcell (hdecode hd)).symm.trans h
  have hword {i : Instr} (hd : decodeNat w = .ok i) : encode i = w := (encode_of_decode (hdecode hd)).1
  refine ⟨fun ht => ?fault, fun ht => ⟨fun hw => ?three, fun hw => ?inp, fun hw => ?out, fun hw => ?jt, fun hw => ?jf,
    fun hw => ?halt⟩⟩
  case fault =>
    obtain ⟨f, rfl⟩ := step_faulted h ht
    rfl
  case three =>
    simp only [List.mem_cons, List.not_mem_nil, or_false] at hw
    obtain hw | hw | hw | hw := hw
    · exact pc_of_threeOperand ht (exec_add .. ▸ hexec (decodeNat_add hw))
    · exact pc_of_threeOperand ht (exec_mul .. ▸ hexec (decodeNat_mul hw))
    · exact pc_of_threeOperand ht (exec_lt .. ▸ hexec (decodeNat_lt hw))
    · exact pc_of_threeOperand ht (exec_eq .. ▸ hexec (decodeNat_eq hw))
  case inp =>
    have hd := decodeNat_inp hw
    exact pc_of_inp ht hr (fetchInstr_ok_iff.mpr ⟨w, hcell, hdecode hd⟩) (hexec hd)
  case out => exact pc_of_out ht (hexec (decodeNat_out hw))
  case jt =>
    have hd := decodeNat_jt hw
    obtain ⟨c, a, h1, h2, hpc⟩ := pc_of_jumpIf ht (exec_jt .. ▸ hexec hd)
    rw [hword hd] at h1 h2
    exact ⟨c, a, h1, h2, by simpa using hpc⟩
  case jf =>
    have hd := decodeNat_jf hw
    obtain ⟨c, a, h1, h2, hpc⟩ := pc_of_jumpIf ht (exec_jf .. ▸ hexec hd)
    rw [hword hd] at h1 h2
    exact ⟨c, a, h1, h2, by simpa using hpc⟩
  case halt =>
    have hhalt := hexec (decodeNat_halt hw)
    rw [exec_halt] at hhalt
    cases hhalt
    rfl

/-- Settles O58: the codes are the definition's own. -/
theorem faultCodesOneToSix : Obligations.FaultCodesOneToSix := by
  unfold Obligations.FaultCodesOneToSix
  exact fun _ _ _ _ => ⟨rfl, rfl, rfl, rfl, rfl, rfl⟩

end Sys2Proof.Machine
end

section
/-! The host's ports and whole runs: load and supply, what every run keeps, and how a run ends (R16, R19 to R25, R107). -/

namespace Sys2Proof.Machine

/-- Load accepts exactly the images and inputs whose values all fit the width (R84, R150). -/
theorem load_eq (cfg : Config) (image : List Int) (ip : Int) (input : List Int) : load cfg image ip input =
    if (image ++ input).all (widthFits cfg.width) then some ⟨image, ip, .running, none, 0, [], input, cfg⟩ else none := by
  rw [load, Memory.wf, List.all_append]

/-- A loaded state holds what the host gave, and all of it fits the width. -/
theorem load_some {cfg : Config} {image : List Int} {ip : Int} {input : List Int} {s : State}
    (h : load cfg image ip input = some s) :
    (image ++ input).all (widthFits cfg.width) = true ∧ s = ⟨image, ip, .running, none, 0, [], input, cfg⟩ := by
  rw [load_eq] at h
  split at h
  · next hfit => cases h; exact ⟨hfit, rfl⟩
  · cases h

/-- Settles O45: the one test of load, and the fetch of the loaded machine. -/
theorem loadSetsEveryItem : Obligations.LoadSetsEveryItem := by
  unfold Obligations.LoadSetsEveryItem
  refine fun cfg image ip input => ⟨fun hfit => ?accepts, fun hnot => ?refuses, fun hw => ?unbounded, fun s h hb => ?badStart⟩
  case accepts => rw [load_eq, if_pos (List.all_eq_true.mpr hfit)]
  case refuses =>
    obtain ⟨v, hv, hnot⟩ := hnot
    rw [load_eq, if_neg fun hall => by simp [List.all_eq_true.mp hall v hv] at hnot]
  case unbounded =>
    have hall : (image ++ []).all (widthFits cfg.width) = true := by simp [hw, widthFits]
    exact ⟨_, by rw [load_eq, if_pos hall], rfl⟩
  case badStart =>
    obtain ⟨-, rfl⟩ := load_some h
    exact step_outside rfl hb

/-- A machine that has just been loaded, with parameters that can exist, has the invariant. -/
theorem inv_of_load {cfg : Config} {image : List Int} {ip : Int} {input : List Int} {s : State} (hcfg : cfg.wf = true)
    (h : load cfg image ip input = some s) : s.Inv := by
  have htape := wf_load h
  obtain ⟨-, rfl⟩ := load_some h
  exact ⟨hcfg, htape, rfl, Nat.zero_le _, by simp, nofun⟩

/-- The host's supplying input extends the input alone, behind the cursor. -/
theorem State.Inv.supply {s t : State} {v : Int} (hs : s.Inv) (h : s.supply v = some t) : t.Inv := by
  obtain ⟨-, rfl⟩ := supply_some h
  have hcursor : s.inPos ≤ (s.input ++ [v]).length := hs.cursor_le.trans (by simp)
  exact ⟨hs.cfg_wf, hs.tape_wf, hs.out_wf, hcursor, hs.fault_iff, hs.halt_word⟩

/-- Settles O46: the reset state is the one that load answers for an empty image and no input. -/
theorem resetSatisfiesTheInvariant : Obligations.ResetSatisfiesTheInvariant := by
  unfold Obligations.ResetSatisfiesTheInvariant
  exact inv_of_load (cfg := ⟨.unbounded, .malformedOperand⟩) (image := []) (ip := 0) (input := []) rfl rfl

/-- Settles O47: load starts with the invariant and supply keeps it. -/
theorem hostPortsKeepTheInvariant : Obligations.HostPortsKeepTheInvariant := by
  unfold Obligations.HostPortsKeepTheInvariant
  exact ⟨fun _ _ _ _ _ hcfg h => inv_of_load hcfg h, fun _ _ _ hs h => hs.supply h⟩

/-- The invariant holds along every run, by the run's own steps and the host's. -/
theorem State.Inv.reaches {s t : State} (hs : s.Inv) (h : Reaches s t) : t.Inv := by
  induction h with
  | refl => exact hs
  | step _ hstep ih => exact ih.step hstep
  | supply v _ hsupply ih => exact ih.supply hsupply

/-- Settles O49: load establishes the invariant, and an induction on the run carries it on. -/
theorem everyRunSatisfiesTheInvariant : Obligations.EveryRunSatisfiesTheInvariant := by
  unfold Obligations.EveryRunSatisfiesTheInvariant
  exact fun _ _ _ _ _ _ hcfg hload h => (inv_of_load hcfg hload).reaches h

section
variable {s t : State}

/-- No step changes the tape's length, the supplied input or the parameters (R10, R24). -/
theorem step_frame (h : step s = .next t) : t.tape.length = s.tape.length ∧ t.input = s.input ∧ t.cfg = s.cfg := by
  obtain ⟨_, -, rfl⟩ | ⟨_, _, -, -, heffect⟩ := step_effect h
  · exact ⟨rfl, rfl, rfl⟩
  · exact ⟨heffect.tape_length, heffect.host⟩

/-- A step extends the output log at its end, or leaves it (R20). -/
theorem step_out_prefix (h : step s = .next t) : s.out <+: t.out := by
  obtain hout | ⟨_, v, -, -, -, hout⟩ := onlyOutAppendsToTheLog s t h
  · rw [hout]
  · rw [hout]; exact List.prefix_append _ _

/-- A step never moves the cursor back (R19). -/
theorem step_inPos_le (h : step s = .next t) : s.inPos ≤ t.inPos := by
  obtain hpos | ⟨_, _, _, -, -, hpos, -⟩ := onlyInConsumesInput s t h <;> omega

end

/-- Settles O50: by induction on the run; a step keeps all three and the host extends the input. -/
theorem lengthAndParametersNeverChange : Obligations.LengthAndParametersNeverChange := by
  unfold Obligations.LengthAndParametersNeverChange
  intro s t h
  induction h with
  | refl => exact ⟨rfl, rfl, List.prefix_refl _⟩
  | step _ hstep ih =>
    obtain ⟨hlen, hinput, hcfg⟩ := step_frame hstep
    rwa [hlen, hinput, hcfg]
  | supply v _ hsupply ih =>
    obtain ⟨hlen, hcfg, hinput⟩ := ih
    obtain ⟨-, rfl⟩ := supply_some hsupply
    exact ⟨hlen, hcfg, hinput.trans (List.prefix_append _ _)⟩

/-- Settles O51: by induction on the run; a step extends the log and the cursor, and the host touches neither. -/
theorem outputLogOnlyGrows : Obligations.OutputLogOnlyGrows := by
  unfold Obligations.OutputLogOnlyGrows
  intro s t h
  induction h with
  | refl => exact ⟨List.prefix_refl _, le_refl _⟩
  | step _ hstep ih => exact ⟨ih.1.trans (step_out_prefix hstep), ih.2.trans (step_inPos_le hstep)⟩
  | supply v _ hsupply ih =>
    obtain ⟨-, rfl⟩ := supply_some hsupply
    exact ih

/-- Settles O52: by induction on the run; a state whose `STATUS` is not `RUNNING` has no step, so only the host acts. -/
theorem terminalStatesAreAbsorbing : Obligations.TerminalStatesAreAbsorbing := by
  unfold Obligations.TerminalStatesAreAbsorbing
  intro s t hs h
  induction h with
  | refl => rfl
  | step _ hstep ih =>
    rw [ih] at hstep
    exact absurd (step_cases hstep).1 hs
  | supply v _ hsupply ih =>
    obtain ⟨-, rfl⟩ := supply_some hsupply
    rw [ih]

theorem result_of_halted {s : State} (h : s.status = .halted) : s.result = cellAt s.tape 0 := by simp [State.result, h]

theorem result_of_not_halted {s : State} (h : s.status ≠ .halted) : s.result = none := by
  unfold State.result
  split
  · next hs => exact absurd hs h
  · rfl

/-- A tape with a cell has a cell 0. -/
theorem inBounds_zero {x : Tape} {a : Int} (h : InBounds x a) : InBounds x 0 := ⟨le_refl _, h.1.trans_lt h.2⟩

/-- Settles O53: the HALT at which a halted `pc` points is a cell, so the tape has one and the result port shows it. -/
theorem resultExistsOnceHalted : Obligations.ResultExistsOnceHalted := by
  unfold Obligations.ResultExistsOnceHalted
  refine fun s => ⟨fun hs hhalted => ?result, result_of_not_halted⟩
  case result =>
    obtain ⟨_, hfetch⟩ := hs.halt_word hhalted
    obtain ⟨_, hcell, -⟩ := fetchInstr_ok_iff.mp hfetch
    have hzero := inBounds_zero (inBounds_of_cellAt hcell)
    obtain ⟨v, hv⟩ := cellAt_of_inBounds hzero
    exact ⟨by have := hzero.2; omega, v, hv, (result_of_halted hhalted).trans hv⟩

section
variable {s t : State} (n : Nat)

theorem runFor_halted (h : s.status = .halted) : runFor n s = .halted s.result s := by
  cases n <;> simp [runFor, h]

theorem runFor_faulted (h : s.status = .faulted) : runFor n s = .faulted s.fault s := by
  cases n <;> simp [runFor, h]

theorem runFor_zero (h : s.status = .running) : runFor 0 s = .unfinished s := by simp [runFor, h]

theorem runFor_succ (h : step s = .next t) : runFor (n + 1) s = runFor n t := by
  rw [runFor, (step_cases h).1]
  simp [h]

/-- In a terminal state no fuel makes a difference (R107). -/
theorem runFor_terminal (h : s.status ≠ .running) : runFor n s = runFor 0 s := by
  cases hs : s.status with
  | running => exact absurd hs h
  | halted => rw [runFor_halted n hs, runFor_halted 0 hs]
  | faulted => rw [runFor_faulted n hs, runFor_faulted 0 hs]

end

/-- A step before a run is a run. -/
theorem Reaches.head {s t u : State} (hstep : Machine.step s = .next t) (h : Reaches t u) : Reaches s u := by
  induction h with
  | refl => exact .step .refl hstep
  | step _ h ih => exact .step ih h
  | supply v _ h ih => exact .supply v ih h

/-- Where a run with some fuel gets to: a running state, or a terminal one, at which more fuel stops too (R107). -/
theorem runFor_end (n : Nat) (s : State) : ∃ t, Reaches s t ∧
    ((t.status = .running ∧ runFor n s = .unfinished t) ∨
      (t.status ≠ .running ∧ ∀ m, n ≤ m → runFor m s = runFor 0 t)) := by
  induction n generalizing s with
  | zero =>
    by_cases hs : s.status = .running
    · exact ⟨s, .refl, .inl ⟨hs, runFor_zero hs⟩⟩
    · exact ⟨s, .refl, .inr ⟨hs, fun m _ => runFor_terminal m hs⟩⟩
  | succ n ih =>
    by_cases hs : s.status = .running
    · obtain ⟨s', hstep⟩ := step_next hs
      obtain ⟨t, hreach, hend⟩ := ih s'
      refine ⟨t, hreach.head hstep, hend.imp (fun ⟨ht, hrun⟩ => ?running) (fun ⟨ht, hrun⟩ => ?terminal)⟩
      case running => exact ⟨ht, (runFor_succ n hstep).trans hrun⟩
      case terminal =>
        refine ⟨ht, fun m hm => ?_⟩
        obtain ⟨m, rfl⟩ := Nat.exists_eq_add_of_le' (Nat.one_le_of_lt hm)
        rw [runFor_succ m hstep, hrun m (by omega)]
    · exact ⟨s, .refl, .inr ⟨hs, fun m _ => runFor_terminal m hs⟩⟩

/-- The report of a terminal state is by its `STATUS` (R107, R108). -/
theorem runFor_zero_terminal {s : State} (h : s.status ≠ .running) :
    (s.status = .halted ∧ runFor 0 s = .halted s.result s) ∨ (s.status = .faulted ∧ runFor 0 s = .faulted s.fault s) := by
  cases hs : s.status with
  | running => exact absurd hs h
  | halted => exact .inl ⟨rfl, runFor_halted 0 hs⟩
  | faulted => exact .inr ⟨rfl, runFor_faulted 0 hs⟩

/-- Settles O54: the state the run gets to, by its `STATUS`. -/
theorem endedRunsStayEnded : Obligations.EndedRunsStayEnded := by
  unfold Obligations.EndedRunsStayEnded
  intro n s u
  obtain ⟨t, hreach, ⟨ht, hrun⟩ | ⟨ht, hrun⟩⟩ := runFor_end n s
  case inl =>
    rw [hrun]
    exact ⟨nofun, nofun, fun h => by cases h; exact ⟨ht, hreach⟩⟩
  case inr =>
    obtain ⟨hstatus, hend⟩ | ⟨hstatus, hend⟩ := runFor_zero_terminal ht
    all_goals rw [hend] at hrun
    all_goals rw [hrun n le_rfl]
    · refine ⟨fun r h => ?_, nofun, nofun⟩
      cases h
      exact ⟨hstatus, result_of_halted hstatus, hreach, hrun⟩
    · refine ⟨nofun, fun f h => ?_, nofun⟩
      cases h
      exact ⟨hstatus, rfl, result_of_not_halted (by simp [hstatus]), hreach, hrun⟩

end Sys2Proof.Machine
end

section
/-! The diagnostic walk and the assembly statements (R63, R64, R115). -/

namespace Sys2Proof.Machine

theorem walkFrom_nil (n : Nat) : walkFrom n [] = [] := by cases n <;> rfl

section
variable {w : Int} (rest : List Int) (n : Nat)

theorem walkFrom_error {e : DecodeError} (h : decode w = .error e) : walkFrom (n + 1) (w :: rest) = [.raw (w :: rest)] := by
  simp [walkFrom, h]

theorem walkFrom_ok {i : Instr} (h : decode w = .ok i) : walkFrom (n + 1) (w :: rest) =
    .instruction ((w :: rest).take i.length) :: walkFrom n ((w :: rest).drop i.length) := by
  simp [walkFrom, h]

/-- Every instruction takes at least its own word (R55). -/
theorem instr_length_pos (i : Instr) : 0 < i.length := by cases i <;> simp [Instr.length]

/-- What is left after an instruction is shorter. -/
theorem length_drop_le (i : Instr) {n : Nat} (h : (w :: rest).length ≤ n + 1) :
    ((w :: rest).drop i.length).length ≤ n := by
  have := instr_length_pos i
  rw [List.length_drop]
  omega

end

/-- Rounds beyond the number of cells make no difference. -/
theorem walkFrom_enough {n m : Nat} {x : List Int} (hn : x.length ≤ n) (hm : x.length ≤ m) :
    walkFrom n x = walkFrom m x := by
  induction n generalizing m x with
  | zero => rw [List.length_eq_zero_iff.mp (Nat.le_zero.mp hn), walkFrom_nil, walkFrom_nil]
  | succ n ih =>
    cases x with
    | nil => rw [walkFrom_nil, walkFrom_nil]
    | cons w rest =>
      obtain ⟨m, rfl⟩ := Nat.exists_eq_add_of_le' (Nat.one_le_of_lt hm)
      cases hd : decode w with
      | error e => rw [walkFrom_error rest n hd, walkFrom_error rest m hd]
      | ok i =>
        rw [walkFrom_ok rest n hd, walkFrom_ok rest m hd, ih (length_drop_le rest i hn) (length_drop_le rest i hm)]

/-- Settles O55: the rounds of the walk one by one, with no mention of the fuel. -/
theorem walkCutsInstructionByInstruction : Obligations.WalkCutsInstructionByInstruction := by
  unfold Obligations.WalkCutsInstructionByInstruction
  refine ⟨rfl, fun w rest e hd => walkFrom_error rest rest.length hd, fun w rest i hd => ?cut, rfl⟩
  case cut =>
    have hrest : walkFrom rest.length ((w :: rest).drop i.length) = walk ((w :: rest).drop i.length) :=
      walkFrom_enough (length_drop_le rest i le_rfl) le_rfl
    rw [← hrest]
    exact walkFrom_ok rest rest.length hd

/-- The chunks put together, for enough rounds. -/
theorem flatMap_walkFrom (n : Nat) {x : List Int} (h : x.length ≤ n) : (walkFrom n x).flatMap Chunk.cells = x := by
  induction n generalizing x with
  | zero => rw [List.length_eq_zero_iff.mp (Nat.le_zero.mp h)]; rfl
  | succ n ih =>
    cases x with
    | nil => rfl
    | cons w rest =>
      cases hd : decode w with
      | error e => rw [walkFrom_error rest n hd, List.flatMap_singleton, Chunk.cells]
      | ok i =>
        rw [walkFrom_ok rest n hd, List.flatMap_cons, ih (length_drop_le rest i h), Chunk.cells, List.take_append_drop]

/-- Settles O56: each round shows a first part of the cells that are left, and the next rounds the rest. -/
theorem walkShowsTheWholeTape : Obligations.WalkShowsTheWholeTape := by
  unfold Obligations.WalkShowsTheWholeTape
  exact fun x => flatMap_walkFrom x.length le_rfl

@[simp] theorem ReadOp.mode_wf (a : ReadOp) : a.mode.wf = true := by cases a <;> rfl

/-- A statement writes a word that exists, and one cell for each operand (R56, R63). -/
theorem Stmt.instr_shape {st : Stmt} {i : Instr} (h : st.instr = some i) :
    i.wf = true ∧ st.operandCells.length + 1 = i.length := by
  cases st <;> cases h <;> simp [Instr.wf, Stmt.operandCells, Instr.length]

theorem Stmt.assemble_of_instr {st : Stmt} {i : Instr} (h : st.instr = some i) :
    st.assemble = encode i :: st.operandCells := by
  simp [Stmt.assemble, h]

/-- Settles O57: the word of a statement is the encoding of a well-formed instruction, so it decodes to it. -/
theorem statementsAssembleToOneInstruction : Obligations.StatementsAssembleToOneInstruction := by
  unfold Obligations.StatementsAssembleToOneInstruction
  refine ⟨fun st i h => ?_, fun n => ⟨rfl, rfl⟩, rfl⟩
  obtain ⟨hwf, hlen⟩ := Stmt.instr_shape h
  have hcells := Stmt.assemble_of_instr h
  exact ⟨by rw [hcells, List.length_cons, hlen], _, hcells, decode_encode hwf⟩

end Sys2Proof.Machine
end

section
/-! Digits that are not examined: the word of an instruction matters to the record of an illegal mode alone (R60, R125). -/

namespace Sys2Proof.Machine

/-- Two words execute alike at `s`: the same outcome where `legal` holds, and in any case the same next state but for the
raw word that `IllegalMode` records. -/
def AlikeButRawWord (legal : Prop) (s : State) (w w' : Int) (e e' : Host.Outcome State Fault Refusal) : Prop :=
  (legal → e = e') ∧ ∃ t u, e = .next t ∧ e' = .next u ∧ { u with fault := none } = { t with fault := none } ∧
    (u.fault = t.fault ∨ ∃ k, t.fault = some (.illegalMode s.pc w k) ∧ u.fault = some (.illegalMode s.pc w' k))

section
variable {legal : Prop} {s : State} {w w' : Int} {e e' : Host.Outcome State Fault Refusal}

/-- Equal outcomes are alike. -/
theorem AlikeButRawWord.of_eq {t : State} (h : e = .next t) (h' : e' = .next t) : AlikeButRawWord legal s w w' e e' :=
  ⟨fun _ => h.trans h'.symm, t, t, h, h', rfl, .inl rfl⟩

/-- Two illegal modes of the same operand are alike, each with its own word. -/
theorem AlikeButRawWord.of_illegal {k : Nat} (hlegal : ¬ legal) (h : e = .next (s.takeFault (.illegalMode s.pc w k)))
    (h' : e' = .next (s.takeFault (.illegalMode s.pc w' k))) : AlikeButRawWord legal s w w' e e' :=
  ⟨fun hl => absurd hl hlegal, _, _, h, h', rfl, .inr ⟨k, rfl, rfl⟩⟩

/-- An operand resolves alike under both words, or raises `IllegalMode` under each. -/
theorem readOperand_words (w w' : Int) (m : Mode) (k : Nat) (s : State) :
    (m.legal = true ∧ readOperand w' m k s = readOperand w m k s) ∨
    (¬ m.legal = true ∧ ∀ v, readOperand v m k s = .error (.illegalMode s.pc v k)) := by
  cases m with
  | illegal d => exact .inr ⟨nofun, fun _ => rfl⟩
  | _ => exact .inl ⟨rfl, rfl⟩

/-- What the six operations with two read operands have in common, for the words of the one operation that `run` is:
what `IllegalMode` and other faults of the operands do, and that legal modes hide the word. -/
theorem alikeButRawWord_of_two {run : Int → Host.Outcome State Fault Refusal} {m1 m2 : Mode}
    (hnext : ∀ w, ∃ t, run w = .next t)
    (hone : ∀ {w f}, readOperand w m1 1 s = .error f → run w = .next (s.takeFault f))
    (htwo : ∀ {w a f}, readOperand w m1 1 s = .ok a → readOperand w m2 2 s = .error f → run w = .next (s.takeFault f))
    (hlegal : ∀ {w w'}, m1.legal = true → m2.legal = true → run w' = run w) :
    AlikeButRawWord (m1.legal = true ∧ m2.legal = true) s w w' (run w) (run w') := by
  obtain ⟨hm1, h1⟩ | ⟨hm1, h1⟩ := readOperand_words w w' m1 1 s
  · obtain ⟨hm2, -⟩ | ⟨hm2, h2⟩ := readOperand_words w w' m2 2 s
    · obtain ⟨t, ht⟩ := hnext w
      exact .of_eq ht ((hlegal hm1 hm2).trans ht)
    · cases hr : readOperand w m1 1 s with
      | error f => exact .of_eq (hone hr) (hone (h1.trans hr))
      | ok a => exact .of_illegal (fun hl => hm2 hl.2) (htwo hr (h2 w)) (htwo (h1.trans hr) (h2 w'))
  · exact .of_illegal (fun hl => hm1 hl.1) (hone (h1 w)) (hone (h1 w'))

theorem alikeButRawWord_threeOperand (w w' : Int) (m1 m2 : Mode) (result : Int → Int → Except FaultRecord Int)
    (s : State) : AlikeButRawWord (m1.legal = true ∧ m2.legal = true) s w w'
      (settle s (threeOperand w m1 m2 result s)) (settle s (threeOperand w' m1 m2 result s)) := by
  refine alikeButRawWord_of_two (run := fun w => settle s (threeOperand w m1 m2 result s)) (fun w => settle_next s _)
    (fun h => (settle_threeOperand_error_one h).2) (fun h1 h2 => (settle_threeOperand_error_two h1 h2).2) ?_
  intro w w' hm1 hm2
  simp only [threeOperand, readOperand_word hm1 w' w, readOperand_word hm2 w' w]

theorem alikeButRawWord_jumpIf (w w' : Int) (m1 m2 : Mode) (taken : Int → Bool) (s : State) :
    AlikeButRawWord (m1.legal = true ∧ m2.legal = true) s w w'
      (settle s (jumpIf w m1 m2 taken s)) (settle s (jumpIf w' m1 m2 taken s)) := by
  refine alikeButRawWord_of_two (run := fun w => settle s (jumpIf w m1 m2 taken s)) (fun w => settle_next s _)
    (fun h => (settle_jumpIf_error_one h).2) (fun h1 h2 => (settle_jumpIf_error_two h1 h2).2) ?_
  intro w w' hm1 hm2
  simp only [jumpIf, readOperand_word hm1 w' w, readOperand_word hm2 w' w]

end

/-- Settles O8: the operands are resolved with the word in hand only to record it; a case for each operation with two read
operands, OUT by its one operand, and IN and HALT by definition. -/
theorem unexaminedDigitsHaveNoEffect : Obligations.UnexaminedDigitsHaveNoEffect := by
  unfold Obligations.UnexaminedDigitsHaveNoEffect
  refine ⟨fun op m1 m2 sp sp' s hop => ?two, fun m1 sp sp' s => ?out, fun _ _ _ => ⟨rfl, rfl⟩, rfl, rfl, rfl, rfl, rfl,
    rfl, rfl⟩
  case two =>
    have halike : AlikeButRawWord (m1.legal = true ∧ m2.legal = true) s (encode (op m1 m2 sp)) (encode (op m1 m2 sp'))
        (exec (op m1 m2 sp) s) (exec (op m1 m2 sp') s) := by
      simp only [List.mem_cons, List.not_mem_nil, or_false] at hop
      obtain rfl | rfl | rfl | rfl | rfl | rfl := hop
      · exact alikeButRawWord_threeOperand _ _ m1 m2 _ s
      · exact alikeButRawWord_threeOperand _ _ m1 m2 _ s
      · exact alikeButRawWord_jumpIf _ _ m1 m2 _ s
      · exact alikeButRawWord_jumpIf _ _ m1 m2 _ s
      · exact alikeButRawWord_threeOperand _ _ m1 m2 _ s
      · exact alikeButRawWord_threeOperand _ _ m1 m2 _ s
    exact ⟨fun h1 h2 => halike.1 ⟨h1, h2⟩, halike.2⟩
  case out =>
    obtain ⟨hm, h1⟩ | ⟨hm, h1⟩ := readOperand_words (encode (.out m1 sp)) (encode (.out m1 sp')) m1 1 s
    · obtain ⟨t, ht⟩ := exec_next (.out m1 sp) s
      have ht' : exec (.out m1 sp') s = .next t := by
        rw [← ht]
        simp only [exec, execOut, h1]
      exact ⟨fun _ => ht.trans ht'.symm, t, t, ht, ht', rfl, .inl rfl⟩
    · exact ⟨fun hl => absurd hl hm, _, _, exec_out_faults (h1 _), exec_out_faults (h1 _), rfl, .inr ⟨rfl, rfl⟩⟩

end Sys2Proof.Machine
end

section
/-! Two machines side by side: what a step does not look at it carries along, and what only names a fault changes only the
name (R19, R20, R71, R84, R106). -/

namespace Sys2Proof.Machine

section
variable {α β : Type}

/-- The second computation follows the first: a value becomes its image under `g`, and a fault, unless it is one of those
to `skip`, becomes a fault that `rename` allows. -/
def Follows (skip : FaultRecord → Prop) (rename : FaultRecord → FaultRecord → Prop) (g : α → β) :
    Except FaultRecord α → Except FaultRecord β → Prop
  | .ok a, y => y = .ok (g a)
  | .error f, y => skip f ∨ ∃ f', y = .error f' ∧ rename f f'

variable {skip : FaultRecord → Prop} {rename : FaultRecord → FaultRecord → Prop} {g : α → β}

/-- The same computation follows itself, if a fault may keep its name. -/
theorem Follows.of_eq {x y : Except FaultRecord α} (h : y = x) (hname : ∀ f, rename f f := by simp) :
    Follows skip rename id x y := by
  subst h
  cases y with
  | ok a => exact rfl
  | error f => exact .inr ⟨f, rfl, hname f⟩

theorem Follows.ok (a : α) : Follows skip rename g (.ok a) (.ok (g a)) := rfl

/-- Operands that follow and continuations that follow make computations that follow. -/
theorem Follows.bind {x y : Except FaultRecord Int} {k : Int → Except FaultRecord α} {k' : Int → Except FaultRecord β}
    (h : Follows skip rename id x y) (hk : ∀ a, Follows skip rename g (k a) (k' a)) :
    Follows skip rename g (x >>= k) (y >>= k') := by
  cases x with
  | ok a =>
    obtain rfl : y = .ok a := h
    exact hk a
  | error f =>
    obtain hskip | ⟨f', rfl, hname⟩ := h
    · exact .inl hskip
    · exact .inr ⟨f', rfl, hname⟩

end

/-- What a change `g` of the state must respect at `s`, so that every instruction at `g s` follows the one at `s`: it
commutes with every update, and the resolver, the range check and the port answer after it as before, up to the names of
faults. -/
structure Mirrors (skip : FaultRecord → Prop) (rename : FaultRecord → FaultRecord → Prop) (g : State → State) (s : State) :
    Prop where
  writeCell : ∀ t d v, g (t.writeCell d v) = (g t).writeCell d v := by intros; rfl
  setPc : ∀ t a, g (t.setPc a) = (g t).setPc a := by intros; rfl
  advance : ∀ t n, g (t.advance n) = (g t).advance n := by intros; rfl
  emit : ∀ t v, g (t.emit v) = (g t).emit v := by intros; rfl
  consumeInput : ∀ t, g t.consumeInput = (g t).consumeInput := by intros; rfl
  haltNow : ∀ t, g t.haltNow = (g t).haltNow := by intros; rfl
  read : ∀ w m k, Follows skip rename id (readOperand w m k s) (readOperand w m k (g s))
  target : ∀ k, Follows skip rename id (writeTarget k s) (writeTarget k (g s))
  arith : ∀ v, Follows skip rename id (arithResult v s) (arithResult v (g s))
  offer : inputOffer (g s) = inputOffer s

section
variable {skip : FaultRecord → Prop} {rename : FaultRecord → FaultRecord → Prop} {g : State → State} {s t : State}

/-- What has become of a next state: a fault to skip, its image, or a fault under another name. -/
def Mirrored (skip : FaultRecord → Prop) (rename : FaultRecord → FaultRecord → Prop) (g : State → State) (s t : State)
    (e : Host.Outcome State Fault Refusal) : Prop :=
  (∃ f, skip f ∧ t = s.takeFault f) ∨ e = .next (g t) ∨
    ∃ f f', rename f f' ∧ t = s.takeFault f ∧ e = .next ((g s).takeFault f')

theorem Follows.settle {x y : Except FaultRecord State} (h : Follows skip rename g x y)
    (ht : Machine.settle s x = .next t) : Mirrored skip rename g s t (Machine.settle (g s) y) := by
  obtain rfl | ⟨f, rfl, rfl⟩ := settle_cases ht
  · obtain rfl : y = .ok (g t) := h
    exact .inr (.inl rfl)
  · obtain hskip | ⟨f', rfl, hname⟩ := h
    · exact .inl ⟨f, hskip, rfl⟩
    · exact .inr (.inr ⟨f, f', hname, rfl, rfl⟩)

namespace Mirrors
variable (h : Mirrors skip rename g s)
include h

theorem threeOperand (w : Int) (m1 m2 : Mode) {result result' : Int → Int → Except FaultRecord Int}
    (hresult : ∀ a b, Follows skip rename id (result a b) (result' a b)) :
    Follows skip rename g (Machine.threeOperand w m1 m2 result s) (Machine.threeOperand w m1 m2 result' (g s)) := by
  refine (h.read w m1 1).bind fun a => (h.read w m2 2).bind fun b => (h.target 3).bind fun d => (hresult a b).bind fun v => ?_
  exact congrArg Except.ok (((h.advance _ 4).trans (congrArg _ (h.writeCell s d v))).symm)

theorem jumpIf (w : Int) (m1 m2 : Mode) (taken : Int → Bool) :
    Follows skip rename g (Machine.jumpIf w m1 m2 taken s) (Machine.jumpIf w m1 m2 taken (g s)) := by
  refine (h.read w m1 1).bind fun c => (h.read w m2 2).bind fun a => congrArg Except.ok ?_
  rw [apply_ite g, h.setPc, h.advance]

/-- Every instruction at `g s` follows the one at `s`. -/
theorem exec (i : Instr) (ht : Machine.exec i s = .next t) : Mirrored skip rename g s t (Machine.exec i (g s)) := by
  cases i with
  | add m1 m2 sp => exact (h.threeOperand _ m1 m2 fun a b => h.arith (a + b)).settle ht
  | mul m1 m2 sp => exact (h.threeOperand _ m1 m2 fun a b => h.arith (a * b)).settle ht
  | inp sp =>
    refine Follows.settle ((h.target 1).bind fun d => ?_) ht
    rw [h.offer]
    cases inputOffer s with
    | none => exact rfl
    | some v =>
      exact congrArg Except.ok (by rw [h.advance, h.consumeInput, h.writeCell])
  | out m1 sp =>
    refine Follows.settle ((h.read _ m1 1).bind fun a => ?_) ht
    exact congrArg Except.ok (by rw [h.advance, h.emit])
  | jt m1 m2 sp => exact (h.jumpIf _ m1 m2 _).settle ht
  | jf m1 m2 sp => exact (h.jumpIf _ m1 m2 _).settle ht
  | lt m1 m2 sp => exact (h.threeOperand _ m1 m2 fun _ _ => .ok _).settle ht
  | eq m1 m2 sp => exact (h.threeOperand _ m1 m2 fun _ _ => .ok _).settle ht
  | halt sp =>
    cases ht
    exact .inr (.inl (congrArg Host.Outcome.next (h.haltNow s).symm))

end Mirrors

/-- Where nothing is to skip and no fault changes its name, the image of the next state is the next state of the image. -/
theorem Mirrors.exec_eq (h : Mirrors (fun _ => False) (fun f f' => f' = f) g s)
    (hfault : ∀ f, g (s.takeFault f) = (g s).takeFault f) {i : Instr} (ht : Machine.exec i s = .next t) :
    Machine.exec i (g s) = .next (g t) := by
  obtain ⟨_, hskip, -⟩ | hnext | ⟨f, _, rfl, rfl, hnext⟩ := h.exec i ht
  · exact hskip.elim
  · exact hnext
  · rw [hnext, hfault]

/-- The same for a step, if the fetch and `STATUS` are not touched either. -/
theorem Mirrors.step_eq (h : Mirrors (fun _ => False) (fun f f' => f' = f) g s)
    (hfault : ∀ f, g (s.takeFault f) = (g s).takeFault f) (hfetch : fetchInstr (g s) = fetchInstr s)
    (hstatus : (g s).status = s.status) (ht : step s = .next t) : step (g s) = .next (g t) := by
  obtain ⟨hr, ⟨f, hf, rfl⟩ | ⟨i, hi, hexec⟩⟩ := step_cases ht
  · rw [hfault]
    exact step_of_fetchInstr_error (hstatus.trans hr) (hfetch.trans hf)
  · rw [step_of_fetchInstr_ok (hstatus.trans hr) (hfetch.trans hi)]
    exact h.exec_eq hfault hexec

end

/-- The state with another supplied input. -/
def State.withInput (input : List Int) (s : State) : State := { s with input := input }

/-- The state with integers emitted before those of its own log. -/
def State.prependLog (out : List Int) (s : State) : State := { s with out := out ++ s.out }

/-- The state of a machine built with the other name for an out-of-bounds pointer. -/
def State.withPosTargetFault (q : PosTargetFault) (s : State) : State :=
  { s with cfg := { s.cfg with posTargetFault := q } }

/-- The state of the machine whose cells are unbounded. -/
def State.unbounded (s : State) : State := { s with cfg := { s.cfg with width := .unbounded } }

section
variable {s : State}

/-- The range check looks at `pc` and the width only. -/
theorem arithResult_congr {u : State} (v : Int) (hp : u.pc = s.pc) (hw : u.cfg.width = s.cfg.width) :
    arithResult v u = arithResult v s := by
  simp [arithResult, hp, hw]

/-- The port looks at the integer at the cursor and the width only. -/
theorem inputOffer_congr {u : State} (hget : u.input[u.inPos]? = s.input[s.inPos]?)
    (hw : u.cfg.width = s.cfg.width) : inputOffer u = inputOffer s := by
  unfold inputOffer
  rw [hget, hw]

/-- The supplied input is looked at only through the port (R19). -/
theorem mirrors_withInput {input : List Int} (h : input[s.inPos]? = s.input[s.inPos]?) :
    Mirrors (fun _ => False) (fun f f' => f' = f) (State.withInput input) s where
  read w m k := .of_eq (readOperand_congr w m k rfl rfl rfl)
  target k := .of_eq (writeTarget_congr k rfl rfl)
  arith v := .of_eq (arithResult_congr v rfl rfl)
  offer := inputOffer_congr h rfl

/-- The log is not looked at; an emission extends it at its end, away from what stands before it (R20). -/
theorem mirrors_prependLog (out : List Int) :
    Mirrors (fun _ => False) (fun f f' => f' = f) (State.prependLog out) s where
  emit t v := by simp [State.prependLog, State.emit]
  read w m k := .of_eq (readOperand_congr w m k rfl rfl rfl)
  target k := .of_eq (writeTarget_congr k rfl rfl)
  arith v := .of_eq (arithResult_congr v rfl rfl)
  offer := rfl

/-- Whether an operand resolves, and to what, is not a matter of the parameters (R71). -/
theorem readOperand_ok_congr {u : State} {w : Int} {m : Mode} {k : Nat} {v : Int} (ht : u.tape = s.tape)
    (hp : u.pc = s.pc) (h : readOperand w m k s = .ok v) : readOperand w m k u = .ok v := by
  obtain ⟨rfl, hcell⟩ | ⟨rfl, p, hcell, hv⟩ := readOperand_ok_cases h
  · exact readOperand_immediate (by rw [ht, hp, hcell])
  · exact readOperand_position (by rw [ht, hp, hcell]) (by rw [ht, hv])

/-- With the other name for an out-of-bounds pointer an operand resolves to the same, or faults too. -/
theorem mirrors_withPosTargetFault (q : PosTargetFault) :
    Mirrors (fun _ => False) (fun _ _ => True) (State.withPosTargetFault q) s where
  read w m k := by
    cases hs : readOperand w m k s with
    | ok v => exact readOperand_ok_congr (s := s) (u := s.withPosTargetFault q) rfl rfl hs
    | error f =>
      cases hu : readOperand w m k (s.withPosTargetFault q) with
      | ok v => cases hs.symm.trans (readOperand_ok_congr (s := s.withPosTargetFault q) (u := s) rfl rfl hu)
      | error f' => exact .inr ⟨f', rfl, trivial⟩
  target k := .of_eq (writeTarget_congr k rfl rfl)
  arith v := .of_eq (arithResult_congr v rfl rfl)
  offer := rfl

/-- Without a bound every integer at the cursor is offered, and within the bound none is refused (R84, R85). -/
theorem inputOffer_unbounded (h : s.input.all (widthFits s.cfg.width) = true) :
    inputOffer s.unbounded = inputOffer s := by
  cases hget : s.input[s.inPos]? with
  | none => rw [inputOffer_none (s := s.unbounded) hget, inputOffer_none hget]
  | some v =>
    have hfit := List.all_eq_true.mp h v (List.mem_of_getElem? hget)
    rw [inputOffer_some.mpr ⟨hget, hfit⟩]
    exact inputOffer_some.mpr ⟨hget, rfl⟩

/-- Without a bound an exact result is the same, where it did not overflow (R84). -/
theorem mirrors_unbounded (h : s.input.all (widthFits s.cfg.width) = true) :
    Mirrors (fun f => ∃ p, f = .arithmeticOverflow p) (fun f f' => f' = f) State.unbounded s where
  read w m k := .of_eq rfl
  target k := .of_eq (writeTarget_congr k rfl rfl)
  arith v := by
    obtain ⟨-, hv⟩ | ⟨-, hv⟩ := arithResult_cases v s <;> rw [hv]
    · exact arithResult_fits rfl
    · exact .inl ⟨_, rfl⟩
  offer := inputOffer_unbounded h

end

/-- Settles O41: the step mirrors the exchange of the supplied input. -/
theorem stepReadsOnlyTheNextInput : Obligations.StepReadsOnlyTheNextInput := by
  unfold Obligations.StepReadsOnlyTheNextInput
  exact fun s t input h ht => (mirrors_withInput h).step_eq (fun _ => rfl) (fetchInstr_congr rfl rfl) rfl ht

/-- A step mirrors integers put before the log. -/
theorem step_prependLog (out : List Int) {s t : State} (h : step s = .next t) :
    step (s.prependLog out) = .next (t.prependLog out) :=
  (mirrors_prependLog out).step_eq (fun _ => rfl) (fetchInstr_congr rfl rfl) rfl h

theorem State.prependLog_empty (out : List Int) (s : State) :
    State.prependLog out { s with out := [] } = { s with out := out } := by
  simp [State.prependLog]

/-- Settles O42: what the step from an empty log emits is what the step from any log appends. -/
theorem noInstructionReadsTheLog : Obligations.NoInstructionReadsTheLog := by
  unfold Obligations.NoInstructionReadsTheLog
  intro s t h
  obtain ⟨t₀, h₀⟩ : ∃ t₀, step { s with out := [] } = .next t₀ := step_next (step_cases h).1
  have hany (out : List Int) : step { s with out := out } = .next (t₀.prependLog out) := by
    rw [← State.prependLog_empty]
    exact step_prependLog out h₀
  obtain rfl : t = t₀.prependLog s.out := by
    have := h.symm.trans (hany s.out)
    exact Host.Outcome.next.inj this
  exact ⟨t₀.out, rfl, hany⟩

/-- Settles O43: the instruction mirrors the exchange of the parameter, a fault changing its name at most. -/
theorem posTargetFaultOnlyNamesTheFault : Obligations.PosTargetFaultOnlyNamesTheFault := by
  unfold Obligations.PosTargetFaultOnlyNamesTheFault
  intro i s t p q ht
  obtain ⟨_, hskip, -⟩ | hnext | ⟨_, f', -, rfl, hnext⟩ := (mirrors_withPosTargetFault q).exec i ht
  · exact hskip.elim
  · exact ⟨_, hnext, rfl⟩
  · exact ⟨_, hnext, rfl⟩

/-- Settles O44: the instruction mirrors the removal of the bound, but for an overflow, which is excluded. -/
theorem finiteWidthAgreesUntilOverflow : Obligations.FiniteWidthAgreesUntilOverflow := by
  unfold Obligations.FiniteWidthAgreesUntilOverflow
  intro i s t n hinput ht hno
  obtain ⟨_, ⟨p, rfl⟩, rfl⟩ | hnext | ⟨_, _, rfl, rfl, hnext⟩ := (mirrors_unbounded hinput).exec i ht
  · exact absurd rfl (hno p)
  · exact hnext
  · exact hnext

end Sys2Proof.Machine
end
